-- ==== Sys2Proof/Word.lean ====
section
/-!
DEFINITION. The words of the block: the byte of the frame buffer, the 32-bit word of an operand field and
of `RESULT`, and the 160-bit command word.
-/

namespace Sys2Proof

/-- One byte of the frame buffer, and the width of `BRIGHT` (10_state.md R21, R22). -/
abbrev Byte := BitVec 8

/-- The width of an operand field and of `RESULT` (30_encoding.md R61, 10_state.md R23). -/
abbrev Word := BitVec 32

/-- One command word, format `CMD160` (30_encoding.md R60). Bit 0 is the least significant bit of `D`. -/
abbrev Command := BitVec 160

end Sys2Proof
end

