-- ==== Sys2Proof/Config.lean ====
section
/-!
DEFINITION. The instantiation-time configuration of the block (00_scope.md R4, 10_state.md R25). It is plain
data that State carries; no command changes it.
-/

namespace Sys2Proof

/-- `STRIDE`, the bytes of one pixel: "3 = RGB, 4 = RGBW"; no other value is legal (00_scope.md R4). -/
inductive Stride where
  | rgb   -- 3 bytes a pixel: R, G, B
  | rgbw  -- 4 bytes a pixel: R, G, B, W
  deriving DecidableEq, Repr

/-- The number of bytes a pixel of this stride takes. -/
def Stride.bytes : Stride → Nat
  | .rgb  => 3
  | .rgbw => 4

/-- `START`, `LENGTH` (in pixels) and `STRIDE`. "The model may hold them as natural numbers" (10_state.md R25). -/
structure Config where
  start  : Nat
  length : Nat
  stride : Stride
  deriving DecidableEq, Repr

namespace Config

/-- `GRID`, voxels per cube axis: 8 only (00_scope.md R4). -/
def grid : Nat := 8

/-- `CAP`, the capacity of the backing buffer in pixels: "the constant 512" (00_scope.md R4, 10_state.md R25). -/
def cap : Nat := 512

/-- `CAP*STRIDE`, the number of bytes of `FB` (10_state.md R21). -/
def size (c : Config) : Nat := cap * c.stride.bytes

/-- `START + LENGTH ≤ CAP`: "a configuration that breaks it is not a configuration of this hardware"
(00_scope.md R4). The other conditions of R4 hold by the types. -/
abbrev Legal (c : Config) : Prop := c.start + c.length ≤ cap

/-- The configuration of this hardware: START 0, LENGTH 512, STRIDE 3 (00_scope.md R4, decision D8). -/
def default : Config := ⟨0, 512, .rgb⟩

end Config

end Sys2Proof
end

