-- ==== Sys2Proof/Syntax.lean ====
section
/-!
DEFINITION. The 19 commands of the opcode table (30_encoding.md R62), one constructor a row, with the operands
the table says a command uses. An operand is an integer from the moment it is decoded (R61).
-/

namespace Sys2Proof

/-- A command; the argument order is the order of the operand fields A, B, C, D (30_encoding.md R62). -/
inductive Instr where
  -- color_model
  | pack (r g b : Int)
  | unpackR (rgb : Int)
  | unpackG (rgb : Int)
  | unpackB (rgb : Int)
  | hsl (h s l : Int)
  -- coordinate_mapper
  | mapXyz (x y z : Int)
  -- framebuffer_engine
  | setPix (offset rgb : Int)
  | setXyz (x y z rgb : Int)
  | setAll (rgb : Int)
  | clear
  | setBright (b : Int)
  | ease
  | shift (n : Int)
  | rotate (n : Int)
  | length
  | power
  | getPix (offset : Int)
  -- rainbow_fill_unit
  | rainbow (startHue endHue : Int)
  -- flush stage
  | flush
  deriving DecidableEq, Repr

end Sys2Proof
end

