-- ==== Sys2Proof/WellFormed.lean ====
section
/-!
DEFINITION. Which commands a command word can carry: every operand is the value of a 32-bit two's-complement
field (30_encoding.md R61). There is no other condition: "There is no legal command whose operand values make
it illegal" (R64).
-/

namespace Sys2Proof

/-- `-2^31 ≤ v ≤ 2^31 - 1` (30_encoding.md R61). -/
abbrev InOperandRange (v : Int) : Prop := -2147483648 ≤ v ∧ v ≤ 2147483647

/-- The operands of a command, in field order A, B, C, D. -/
def Instr.operands : Instr → List Int
  | .pack r g b       => [r, g, b]
  | .unpackR rgb      => [rgb]
  | .unpackG rgb      => [rgb]
  | .unpackB rgb      => [rgb]
  | .hsl h s l        => [h, s, l]
  | .mapXyz x y z     => [x, y, z]
  | .setPix o rgb     => [o, rgb]
  | .setXyz x y z rgb => [x, y, z, rgb]
  | .setAll rgb       => [rgb]
  | .clear            => []
  | .setBright b      => [b]
  | .ease             => []
  | .shift n          => [n]
  | .rotate n         => [n]
  | .length           => []
  | .power            => []
  | .getPix o         => [o]
  | .rainbow h₁ h₂    => [h₁, h₂]
  | .flush            => []

/-- Every operand of the command fits its 32-bit signed field. -/
abbrev Instr.WellFormed (i : Instr) : Prop := ∀ v ∈ i.operands, InOperandRange v

end Sys2Proof
end

