-- ==== Sys2Proof/Decode.lean ====
section
/-!
DEFINITION. The command word `CMD160`: its fields, the decoder (total, every illegal word refused) and the
encoder, both from 30_encoding.md R60 to R64.
-/

namespace Sys2Proof

/-! ### Fields (R60) -/

/-- `OPC`, bits 159:152. -/
def opc (w : Command) : BitVec 8 := w.extractLsb' 152 8

/-- `RSV`, bits 151:128, reserved, must be 0. -/
def rsv (w : Command) : BitVec 24 := w.extractLsb' 128 24

/-- `A`, bits 127:96. -/
def fieldA (w : Command) : Word := w.extractLsb' 96 32

/-- `B`, bits 95:64. -/
def fieldB (w : Command) : Word := w.extractLsb' 64 32

/-- `C`, bits 63:32. -/
def fieldC (w : Command) : Word := w.extractLsb' 32 32

/-- `D`, bits 31:0. -/
def fieldD (w : Command) : Word := w.extractLsb' 0 32

/-- `sext_32`: the field read as two's complement (00_scope.md R6, 30_encoding.md R61). -/
def sext32 (f : Word) : Int := f.toInt

/-! ### Decoder (R62, R63, R64) -/

/-- The command a legal word stands for, `none` for an illegal one: `RSV ≠ 0`, or an `OPC` that no row of the
opcode map has. Operand fields a command does not use are ignored (R63). -/
def decode (w : Command) : Option Instr :=
  let a := sext32 (fieldA w)
  let b := sext32 (fieldB w)
  let c := sext32 (fieldC w)
  let d := sext32 (fieldD w)
  if rsv w = 0#24 then
    match opc w with
    | 0x10#8 => some (.pack a b c)
    | 0x11#8 => some (.unpackR a)
    | 0x12#8 => some (.unpackG a)
    | 0x13#8 => some (.unpackB a)
    | 0x14#8 => some (.hsl a b c)
    | 0x20#8 => some (.mapXyz a b c)
    | 0x30#8 => some (.setPix a b)
    | 0x31#8 => some (.setXyz a b c d)
    | 0x32#8 => some (.setAll a)
    | 0x33#8 => some .clear
    | 0x34#8 => some (.setBright a)
    | 0x35#8 => some .ease
    | 0x36#8 => some (.shift a)
    | 0x37#8 => some (.rotate a)
    | 0x38#8 => some .length
    | 0x39#8 => some .power
    | 0x3A#8 => some (.getPix a)
    | 0x40#8 => some (.rainbow a b)
    | 0x50#8 => some .flush
    | _      => none
  else none

/-! ### Encoder (R60, R62, R66) -/

/-- The opcode of a command (R62). -/
def opcodeOf : Instr → BitVec 8
  | .pack _ _ _     => 0x10#8
  | .unpackR _      => 0x11#8
  | .unpackG _      => 0x12#8
  | .unpackB _      => 0x13#8
  | .hsl _ _ _      => 0x14#8
  | .mapXyz _ _ _   => 0x20#8
  | .setPix _ _     => 0x30#8
  | .setXyz _ _ _ _ => 0x31#8
  | .setAll _       => 0x32#8
  | .clear          => 0x33#8
  | .setBright _    => 0x34#8
  | .ease           => 0x35#8
  | .shift _        => 0x36#8
  | .rotate _       => 0x37#8
  | .length         => 0x38#8
  | .power          => 0x39#8
  | .getPix _       => 0x3A#8
  | .rainbow _ _    => 0x40#8
  | .flush          => 0x50#8

/-- A word of the one format from its opcode and operand fields, `RSV = 0` (R60). -/
def makeWord (op : BitVec 8) (a b c d : Word) : Command := op ++ 0#24 ++ a ++ b ++ c ++ d

/-- The `i`-th operand as a field, 0 where the command has none: "Unused operand fields and `RSV` assemble to
0" (R66). -/
def operandField (i : Instr) (n : Nat) : Word := BitVec.ofInt 32 ((i.operands[n]?).getD 0)

/-- The word of a command. -/
def encode (i : Instr) : Command :=
  makeWord (opcodeOf i) (operandField i 0) (operandField i 1) (operandField i 2) (operandField i 3)

/-! ### The opcode table's numbering -/

/-- The word whose bits are `w`, numbered as spec/opcode_table.json numbers them (its one word is the whole
160-bit command, bit 0 the least significant), every bit from `nbits` up being 0. -/
def tableWord (nbits w : Nat) : Command := BitVec.ofNat 160 (w % 2 ^ nbits)

/-- What the decoder reads from that word. -/
def decodeTableWord (nbits w : Nat) : Option Instr := decode (tableWord nbits w)

end Sys2Proof
end

