-- ==== Sys2Proof/Machine/State.lean ====
section
/-!
DEFINITION. The state of the block (10_state.md R20), what its host may do to it (decision D29), its reset value
(R30) and the reasons a step can stop.
-/

namespace Sys2Proof.Machine

/-- The bytes of `FB` that differ from their reset value 0x00, by address, addresses strictly rising
(`Memory.wf` in Machine/Ops.lean). -/
abbrev Memory := List Host.Cell

/-- What one flush hands over: the bytes of the backing buffer, byte 0 first (44_device_flush.md R141). -/
abbrev Frame := List Byte

/-- What the host does to the block between commands: it presents a command word, or asserts reset (decision
D29; 70_reset_and_hazards.md R170 names these two as the only events that change state). -/
inductive HostEvent where
  | command (w : Command)
  | reset
  deriving DecidableEq, Repr

/-- The state tuple of 10_state.md R20, and the host's future events. -/
structure State where
  /-- `FB`: an address that no cell lists reads 0x00 (R21, R30). -/
  fb     : Memory
  /-- `BRIGHT` (R22). -/
  bright : Byte
  /-- `RESULT` (R23). -/
  result : Word
  /-- `ERR`, `true` for 1 (R24). -/
  err    : Bool
  /-- `START`, `LENGTH`, `STRIDE`; `CAP` is the constant `Config.cap` (R25). -/
  cfg    : Config
  /-- `TXLINE`, the idle level of the serial output, `true` for high (R26). -/
  txline : Bool
  /-- `TXLOG`, the frames handed over since reset, oldest first (R26). -/
  txlog  : List Frame
  /-- What the host will do next, the next event first. The MODEL's own field (log entry 1): the block stores
  no program, so a program is the host's sequence of events (R28). -/
  input  : List HostEvent
  deriving DecidableEq, Repr

/-- Reasons the block stops with a fault. THERE ARE NONE: "No legal command raises an exception, faults, traps,
stalls for ever or reports an error, whatever its operand values" (60_exceptions.md R150), and an illegal word
only sets `ERR` (R151). -/
inductive Fault where
  deriving DecidableEq, Repr

/-- Reasons the model gives no next state. -/
inductive Refusal where
  /-- A command without a meaning in this model, by mnemonic. Raised by an arm of `exec` only; no arm raises it
  now. Safe: the model stops where the hardware goes on. -/
  | notModelled (mnemonic : String)
  /-- The state's configuration breaks `START + LENGTH ≤ CAP`. Raised by `State.finish` for every event. Safe:
  "no rule of this spec is claimed for such a configuration" (93_implementation_defined.md U12, treatment
  `refuse`). -/
  | illegalConfiguration
  deriving DecidableEq, Repr

/-- What a command, an illegal word or an idle step answers. -/
abbrev Outcome := Host.Outcome State Fault Refusal

/-- The state right after reset of a block instantiated with configuration `c`, the host's later events being
`events` (10_state.md R30, 70_reset_and_hazards.md R170). -/
def State.resetWith (c : Config) (events : List HostEvent) : State where
  fb     := []
  bright := 255#8
  result := 0#32
  err    := false
  cfg    := c
  txline := false
  txlog  := []
  input  := events

/-- This hardware right after reset: the default configuration, and a host that presents nothing. -/
def State.reset : State := State.resetWith Config.default []

end Sys2Proof.Machine
end

