-- ==== Sys2Proof/Machine/Flags.lean ====
section
/-!
DEFINITION. `ERR`, "the only flag of the block; there are no condition codes, carry, overflow or zero flags, and
no command writes a flag as a side effect" (10_state.md R24).
-/

namespace Sys2Proof.Machine

/-- `ERR <- 1`; nothing sets it back but reset (10_state.md R24). -/
def State.setErr (s : State) : State := { s with err := true }

/-- The `err` output, "a level that mirrors `ERR`" (60_exceptions.md R152, 10_state.md R24). -/
def State.errOutput (s : State) : Bool := s.err

/-- The cause code that `ERR` amounts to: "1 (the only code; code 0 means no error)" (60_exceptions.md R151). -/
def State.causeCode (s : State) : Nat := if s.err then 1 else 0

end Sys2Proof.Machine
end

