-- ==== Sys2Proof/Machine/Operands.lean ====
section
/-!
DEFINITION. The arithmetic helpers of the rules (00_scope.md R5, R6, R8) and how a command's operand becomes a
pixel address (20_memory.md R43). Integers are unbounded; Lean's `/` and `%` on `Int` with a positive divisor
are the floor `div` and the non-negative `mod` of R5.
-/

namespace Sys2Proof.Machine

/-- `u8(v)`, that is `v & 0xFF` (00_scope.md R8). -/
def u8 (v : Int) : Int := v % 256

/-- `u32(v)`: the 32-bit pattern of an integer (00_scope.md R6). -/
def u32 (v : Int) : Word := BitVec.ofInt 32 v

/-- The byte of an integer (`& 0xFF`, as SETBRIGHT and the stores take it). -/
def byteOf (v : Int) : Byte := BitVec.ofInt 8 (u8 v)

/-- `clamp(v, lo, hi)` (00_scope.md R8). -/
def clamp (v lo hi : Int) : Int := if v < lo then lo else if v > hi then hi else v

/-- `odd(n)`: `n mod 2 = 1`, so `odd(-1)` is true (00_scope.md R8). -/
abbrev odd (n : Int) : Prop := n % 2 = 1

/-- The guard of every pixel offset: `0 ≤ o < LENGTH` (20_memory.md R43). -/
abbrev InWindow (c : Config) (o : Int) : Prop := 0 ≤ o ∧ o < c.length

/-- `addr(o) = (o + START) * STRIDE`, the first byte of window pixel `o` (20_memory.md R43). -/
def pixelAddr (c : Config) (o : Nat) : Nat := (o + c.start) * c.stride.bytes

/-- `START*STRIDE`, the first byte of the window. -/
def windowBase (c : Config) : Nat := c.start * c.stride.bytes

/-- `LENGTH*STRIDE`, the number of bytes of the window. -/
def windowBytes (c : Config) : Nat := c.length * c.stride.bytes

end Sys2Proof.Machine
end

