-- ==== Sys2Proof/Machine/Ops.lean ====
section
/-!
DEFINITION. The named operations over the frame buffer and the registers that every meaning is written with, and
the one exception of the block.
-/

namespace Sys2Proof.Machine

/-! ### The frame buffer as data -/

/-- What an address that no cell lists reads as: the reset contents 0x00 (10_state.md R30). -/
abbrev Memory.unlisted : Byte := 0#8

/-- The canonical form: addresses strictly rising, and no cell holding the 0x00 an unlisted address reads as. -/
abbrev Memory.wf (m : Memory) : Prop := m.Pairwise (fun x y => x.1 < y.1) ∧ ∀ c ∈ m, c.2 ≠ Memory.unlisted

/-- The byte at address `a`. -/
def Memory.read : Memory → Nat → Byte
  | [], _          => Memory.unlisted
  | (b, v) :: m, a => if b = a then v else Memory.read m a

/-- The cells of the `n` addresses from `lo` up when address `a` holds `f a`: none for a 0x00. -/
def Memory.cells (lo n : Nat) (f : Nat → Byte) : Memory :=
  (List.range' lo n).filterMap fun a => if f a = Memory.unlisted then none else some (a, f a)

/-- The memory with `f a` at each of the `n` addresses `a` from `lo` up, and every other address as before. -/
def Memory.fill (m : Memory) (lo n : Nat) (f : Nat → Byte) : Memory :=
  m.filter (fun c => c.1 < lo) ++ Memory.cells lo n f ++ m.filter (fun c => lo + n ≤ c.1)

/-- One byte stored. -/
def Memory.write (m : Memory) (a : Nat) (v : Byte) : Memory := m.fill a 1 fun _ => v

/-! ### `MemRead` and `MemWrite` (00_scope.md R7) -/

/-- `MemRead(a, 1)`. Every use has `a < CAP*STRIDE`, as R7 demands, when the configuration is legal. -/
def State.memRead (s : State) (a : Nat) : Byte := s.fb.read a

/-- `MemWrite(a, 1, v)`. Every use has `a < CAP*STRIDE`, as R7 demands, when the configuration is legal. -/
def State.memWrite (s : State) (a : Nat) (v : Byte) : State := { s with fb := s.fb.write a v }

/-- Channel `j` of window pixel `k`, as stored: the byte at `addr(k) + j` (20_memory.md R43). -/
def State.windowByte (s : State) (k j : Nat) : Byte := s.memRead (pixelAddr s.cfg k + j)

/-- Every byte of the window written at once: channel `j` of window pixel `k` takes `f k j`. The loops of SETALL,
EASE, SHIFT, ROTATE and RAINBOW store each byte of the window at most once and read only what stood there before
the command; Machine/Loops.lean holds those loops as the rules write them. -/
def State.mapWindow (s : State) (f : Nat → Nat → Byte) : State :=
  { s with fb := s.fb.fill (windowBase s.cfg) (windowBytes s.cfg) (fun a =>
      f ((a - windowBase s.cfg) / s.cfg.stride.bytes) ((a - windowBase s.cfg) % s.cfg.stride.bytes)) }

/-! ### Registers and the transmission log -/

/-- `RESULT <- u32(v)` (30_encoding.md R69). -/
def State.setResult (s : State) (v : Int) : State := { s with result := u32 v }

/-- The host's read of `RESULT`, which "has no side effect" (10_state.md R23). -/
def State.readResult (s : State) : Word := s.result

/-- `BRIGHT <- v` (10_state.md R22). -/
def State.setBright (s : State) (v : Byte) : State := { s with bright := v }

/-- `emit(frame)`: `TXLOG <- TXLOG ++ [frame]` (44_device_flush.md R140). -/
def State.emit (s : State) (frame : Frame) : State := { s with txlog := s.txlog ++ [frame] }

/-! ### Completing a step; the exception -/

/-- A step's answer: it completes with state `t` when the configuration is one of this hardware. `START + LENGTH ≤
CAP` is "a precondition of every rule" (00_scope.md R4); without it the model refuses
(93_implementation_defined.md U12). -/
def State.finish (s t : State) : Outcome :=
  if s.cfg.Legal then .next t else .refused .illegalConfiguration

/-- `raise IllegalCommand`, the only exception: `ERR <- 1` and nothing else. Nothing is saved, no mode changes and
control goes nowhere, and there is no return from it (60_exceptions.md R151, R154, R155). -/
def State.raiseIllegalCommand (s : State) : State := s.setErr

end Sys2Proof.Machine
end

