-- ==== Sys2Proof/Machine/Flush.lean ====
section
/-!
DEFINITION. The flush stage (44_device_flush.md): the frame and FLUSH.
-/

namespace Sys2Proof.Machine

/-- The frame of a flush: all `CAP*STRIDE` bytes of the backing buffer, ascending, as stored (R140, R141). -/
def State.frame (s : State) : Frame := (List.range s.cfg.size).map s.memRead

/-- `flush()`: the frame is always taken (R140, R143, decision D28). -/
def State.flushed (s : State) : State := s.emit s.frame

/-- FLUSH (R140). -/
def execFlush (s : State) : Outcome := s.finish s.flushed

end Sys2Proof.Machine
end

