-- ==== Sys2Proof/Machine/Color.lean ====
section
/-!
DEFINITION. The color_model (40_color_model.md): its functions on integers, and PACK, UNPACKR, UNPACKG, UNPACKB,
HSL.
-/

namespace Sys2Proof.Machine

/-- `pack(r, g, b)`, layout `0xRRGGBB`, each channel truncated to 8 bits (R80). -/
def pack (r g b : Int) : Int := u8 r * 65536 + u8 g * 256 + u8 b

/-- `unpackR(rgb) = (rgb >> 16) & 0xFF` (R81). -/
def unpackR (rgb : Int) : Int := u8 (rgb / 65536)

/-- `unpackG(rgb) = (rgb >> 8) & 0xFF` (R81). -/
def unpackG (rgb : Int) : Int := u8 (rgb / 256)

/-- `unpackB(rgb) = rgb & 0xFF` (R81). -/
def unpackB (rgb : Int) : Int := u8 rgb

/-- `|a|` (00_scope.md R5). -/
def absInt (a : Int) : Int := if a < 0 then -a else a

/-- The chroma `c` of `hsl`, for clamped `s`, `l` (R82). -/
def chroma (s l : Int) : Int := (100 - absInt (2 * l - 100)) * s * 256 / 100 / 100

/-- The second-largest component `x` of `hsl`, for a reduced hue `h` and chroma `c` (R82; the spec marks these
three lines as decision D12, from general knowledge). -/
def secondComponent (h c : Int) : Int :=
  let h1 := h / 60
  let h2 := (h - 60 * h1) * 256 / 60
  let t  := absInt (h1 % 2 * 256 + h2 - 256)
  c * (256 - t) / 256

/-- The luminance offset `m` of `hsl`, for clamped `l` and chroma `c` (R82). -/
def luminanceOffset (l c : Int) : Int := (2 * l * 256 / 100 - c) / 2

/-- The six-sector table: `(r1, g1, b1)` for sector `h1`, 0 to 5 (R82). -/
def sectorChannels (h1 c x : Int) : Int × Int × Int :=
  if h1 = 0 then (c, x, 0)
  else if h1 = 1 then (x, c, 0)
  else if h1 = 2 then (0, c, x)
  else if h1 = 3 then (0, x, c)
  else if h1 = 4 then (x, 0, c)
  else (c, 0, x)

/-- `hsl(h, s, l)` for any integers (R82). -/
def hsl (h s l : Int) : Int :=
  let h := h % 360
  let s := clamp s 0 99
  let l := clamp l 0 99
  let c := chroma s l
  let m := luminanceOffset l c
  let q := sectorChannels (h / 60) c (secondComponent h c)
  pack (q.1 + m) (q.2.1 + m) (q.2.2 + m)

/-- PACK (R84). -/
def execPack (r g b : Int) (s : State) : Outcome := s.finish (s.setResult (pack r g b))

/-- UNPACKR (R85). -/
def execUnpackR (rgb : Int) (s : State) : Outcome := s.finish (s.setResult (unpackR rgb))

/-- UNPACKG (R86). -/
def execUnpackG (rgb : Int) (s : State) : Outcome := s.finish (s.setResult (unpackG rgb))

/-- UNPACKB (R87). -/
def execUnpackB (rgb : Int) (s : State) : Outcome := s.finish (s.setResult (unpackB rgb))

/-- HSL (R88). -/
def execHsl (h s l : Int) (st : State) : Outcome := st.finish (st.setResult (hsl h s l))

end Sys2Proof.Machine
end

