-- ==== Sys2Proof/Machine/Mapper.lean ====
section
/-!
DEFINITION. The coordinate_mapper (41_coordinate_mapper.md): `offset` and MAPXYZ.
-/

namespace Sys2Proof.Machine

/-- `offset(x, y, z)` for any integers, the literal three steps: step 2 assigns `7 - x`, not `7 - y` (R100;
90_conflicts.md C2), and nothing is checked (R102). -/
def voxelOffset (x y z : Int) : Int :=
  let x := if odd z then 7 - x else x
  let y := if odd x then 7 - x else y
  z * 64 + x * 8 + y

/-- MAPXYZ (R103). -/
def execMapXyz (x y z : Int) (s : State) : Outcome := s.finish (s.setResult (voxelOffset x y z))

end Sys2Proof.Machine
end

