-- ==== Sys2Proof/Machine/FrameBuffer.lean ====
section
/-!
DEFINITION. The framebuffer_engine (42_framebuffer_engine.md): the colour write path and SETPIX, SETXYZ, SETALL,
CLEAR, SETBRIGHT, EASE, SHIFT, ROTATE, LENGTH, POWER, GETPIX.
-/

namespace Sys2Proof.Machine

/-! ### The colour write path -/

/-- `scale(ch)` at brightness `bright`: a bypass at 255, else `(ch * BRIGHT) >> 8` (R110; 90_conflicts.md C5). -/
def scale (bright : Byte) (ch : Int) : Int :=
  if bright = 255#8 then ch else ch * (bright.toNat : Int) / 256

/-- The byte that a colour write of `rgb` stores for channel `j`: 0 red, 1 green, 2 blue (R111, 20_memory.md R41). -/
def channelByte (bright : Byte) (rgb : Int) (j : Nat) : Byte :=
  match j with
  | 0 => byteOf (scale bright (unpackR rgb))
  | 1 => byteOf (scale bright (unpackG rgb))
  | _ => byteOf (scale bright (unpackB rgb))

/-- `write_pixel(o, rgb)`: dropped outside the window, else the three channel bytes in the order R, G, B; a W byte
is not written (R111). -/
def State.writePixel (s : State) (o rgb : Int) : State :=
  if InWindow s.cfg o then
    let a := pixelAddr s.cfg o.toNat
    ((s.memWrite a (channelByte s.bright rgb 0)).memWrite (a + 1) (channelByte s.bright rgb 1)).memWrite (a + 2)
      (channelByte s.bright rgb 2)
  else s

/-- What channel `j` of window pixel `k` holds after `write_pixel(k, rgb)`: the W byte, channel 3, is left alone
(R111, R123). -/
def State.paintedByte (s : State) (rgb : Int) (k j : Nat) : Byte :=
  if j < 3 then channelByte s.bright rgb j else s.windowByte k j

/-! ### Commands -/

/-- SETPIX (R112). -/
def execSetPix (o rgb : Int) (s : State) : Outcome := s.finish (s.writePixel o rgb)

/-- SETXYZ: `offset`'s exact value, not truncated, is the pixel offset (R113). -/
def execSetXyz (x y z rgb : Int) (s : State) : Outcome := s.finish (s.writePixel (voxelOffset x y z) rgb)

/-- SETALL: `write_pixel(k, rgb)` for every window pixel `k` (R114). -/
def execSetAll (rgb : Int) (s : State) : Outcome := s.finish (s.mapWindow (s.paintedByte rgb))

/-- CLEAR: the literal half-open range `START*STRIDE .. LENGTH*STRIDE - 1`, which is not the window when
`START > 0` (R115; 90_conflicts.md C4). -/
def execClear (s : State) : Outcome :=
  s.finish { s with fb := s.fb.fill (windowBase s.cfg) (windowBytes s.cfg - windowBase s.cfg) fun _ => 0#8 }

/-- SETBRIGHT (R116). -/
def execSetBright (b : Int) (s : State) : Outcome := s.finish (s.setBright (byteOf b))

/-- `br` of EASE for pixel `k < LENGTH` of a window of `length` pixels; 0 when `mid = 0`, where the source's formula
divides zero by zero (R117, decision D19). -/
def easeFactor (length k : Nat) : Nat :=
  let mid := length / 2
  if mid = 0 then 0
  else if k ≤ mid then 255 * k * k / (mid * mid)
  else 255 * (length - 1 - k) * (length - 1 - k) / (mid * mid)

/-- A stored byte scaled by `br`: `(byte * br) >> 8` (R117). -/
def easeByte (br : Nat) (b : Byte) : Byte := BitVec.ofNat 8 (b.toNat * br / 256)

/-- EASE: every byte of every window pixel, the W byte included (R117). -/
def execEase (s : State) : Outcome :=
  s.finish (s.mapWindow fun k j => easeByte (easeFactor s.cfg.length k) (s.windowByte k j))

/-- What SHIFT by `n` leaves in channel `j` of window pixel `i`: the old pixel `i - n`, or zero when that lies
outside the window (R118). -/
def State.shiftedByte (s : State) (n : Int) (i j : Nat) : Byte :=
  let src := (i : Int) - n
  if InWindow s.cfg src then s.windowByte src.toNat j else 0#8

/-- SHIFT (R118). -/
def execShift (n : Int) (s : State) : Outcome := s.finish (s.mapWindow (s.shiftedByte n))

/-- What ROTATE by `n` leaves in channel `j` of window pixel `i`: the old pixel `(i - n) mod LENGTH` (R119). -/
def State.rotatedByte (s : State) (n : Int) (i j : Nat) : Byte :=
  s.windowByte (((i : Int) - n) % s.cfg.length).toNat j

/-- ROTATE; an empty window has no byte to rotate, so the `mod` is not evaluated for it (R119). -/
def execRotate (n : Int) (s : State) : Outcome := s.finish (s.mapWindow (s.rotatedByte n))

/-- LENGTH: the window's pixel count (R120). -/
def execLength (s : State) : Outcome := s.finish (s.setResult s.cfg.length)

/-- The sum of the raw bytes of the window, the W bytes included (R121; 90_conflicts.md C3). -/
def State.windowSum (s : State) : Nat :=
  ((List.range' (windowBase s.cfg) (windowBytes s.cfg)).map fun a => (s.memRead a).toNat).sum

/-- POWER: `LENGTH div 2 + (sum * 433) div 10000`, two separate floor divisions (R121). -/
def execPower (s : State) : Outcome :=
  s.finish (s.setResult ((s.cfg.length / 2 + s.windowSum * 433 / 10000 : Nat) : Int))

/-- GETPIX: the stored R, G, B bytes as a packed colour, 0 outside the window (R122). -/
def execGetPix (o : Int) (s : State) : Outcome :=
  s.finish (s.setResult (
    if InWindow s.cfg o then
      pack (s.windowByte o.toNat 0).toNat (s.windowByte o.toNat 1).toNat (s.windowByte o.toNat 2).toNat
    else 0))

end Sys2Proof.Machine
end

