-- ==== Sys2Proof/Machine/Rainbow.lean ====
section
/-!
DEFINITION. The rainbow_fill_unit (43_rainbow_fill_unit.md): the hue step and RAINBOW, clockwise only (R132).
-/

namespace Sys2Proof.Machine

/-- The interpolation direction, "as an enumeration, `Direction = {Clockwise}`": the one value is wired in (R132). -/
inductive Direction where
  | clockwise
  deriving DecidableEq, Repr

/-- `dist`, the angular distance from `startHue` to `endHue` in the given direction, 0 to 359 (R130, R132). -/
def hueDistance : Direction → Int → Int → Int
  | .clockwise, startHue, endHue => (endHue % 360 - startHue % 360) % 360

/-- `hStep`, hundredths of a degree per pixel, for `steps ≥ 1` pixels (R130). -/
def hueStep (startHue endHue : Int) (steps : Nat) : Int :=
  hueDistance .clockwise startHue endHue * 100 / steps

/-- The hue that RAINBOW passes to `hsl` for pixel `i` of `steps`. In the one-pixel case the step is added in
hundredths, unscaled (R131; the spec marks that as decision D15, from general knowledge). -/
def rainbowHue (startHue endHue : Int) (steps i : Nat) : Int :=
  let hs := startHue % 360
  let he := endHue % 360
  let hStep := hueStep startHue endHue steps
  if steps = 1 then hs + hStep
  else if i = 0 then hs
  else if i = steps - 1 then he
  else (hs * 100 + i * hStep) / 100

/-- The colour of pixel `i`, saturation 100 and luminance 50 (R131). -/
def rainbowColour (startHue endHue : Int) (steps i : Nat) : Int := hsl (rainbowHue startHue endHue steps i) 100 50

/-- RAINBOW: the window painted, then a flush; an empty window is left alone and sends nothing (R131;
90_conflicts.md C1). -/
def execRainbow (startHue endHue : Int) (s : State) : Outcome :=
  s.finish (
    if s.cfg.length = 0 then s
    else (s.mapWindow fun k j => s.paintedByte (rainbowColour startHue endHue s.cfg.length k) k j).flushed)

end Sys2Proof.Machine
end

