-- ==== Sys2Proof/Machine/Dispatch.lean ====
section
/-!
DEFINITION. `exec`: one arm per constructor of `Instr`, each one direct call of that command's meaning.
-/

namespace Sys2Proof.Machine

def exec (i : Instr) (s : State) : Host.Outcome State Fault Refusal :=
  match i with
  -- color_model
  | .pack r g b => Sys2Proof.Machine.execPack r g b s
  | .unpackR rgb => Sys2Proof.Machine.execUnpackR rgb s
  | .unpackG rgb => Sys2Proof.Machine.execUnpackG rgb s
  | .unpackB rgb => Sys2Proof.Machine.execUnpackB rgb s
  | .hsl h sat l => Sys2Proof.Machine.execHsl h sat l s
  -- coordinate_mapper
  | .mapXyz x y z => Sys2Proof.Machine.execMapXyz x y z s
  -- framebuffer_engine
  | .setPix o rgb => Sys2Proof.Machine.execSetPix o rgb s
  | .setXyz x y z rgb => Sys2Proof.Machine.execSetXyz x y z rgb s
  | .setAll rgb => Sys2Proof.Machine.execSetAll rgb s
  | .clear => Sys2Proof.Machine.execClear s
  | .setBright b => Sys2Proof.Machine.execSetBright b s
  | .ease => Sys2Proof.Machine.execEase s
  | .shift n => Sys2Proof.Machine.execShift n s
  | .rotate n => Sys2Proof.Machine.execRotate n s
  | .length => Sys2Proof.Machine.execLength s
  | .power => Sys2Proof.Machine.execPower s
  | .getPix o => Sys2Proof.Machine.execGetPix o s
  -- rainbow_fill_unit
  | .rainbow hueA hueB => Sys2Proof.Machine.execRainbow hueA hueB s
  -- flush stage
  | .flush => Sys2Proof.Machine.execFlush s

end Sys2Proof.Machine
end

