-- ==== Sys2Proof/Machine/Step.lean ====
section
/-!
DEFINITION. One step: the block takes the host's next event (10_state.md R28, 70_reset_and_hazards.md R170, R172).
-/

namespace Sys2Proof.Machine

/-- One step of the block.
* No event: "an idle block simply holds its state until the next command" (60_exceptions.md R157).
* Reset: every piece of state takes its reset value, the configuration stays (70_reset_and_hazards.md R170).
* A command word: classified "before anything else is done with it" (60_exceptions.md R153); a legal one is
  executed, an illegal one raises `IllegalCommand`. Either way the word is used up. -/
def step (s : State) : Host.Outcome State Fault Refusal :=
  match s.input with
  | []                   => s.finish s
  | .reset :: rest       => s.finish (State.resetWith s.cfg rest)
  | .command w :: rest   =>
    match decode w with
    | some i => exec i { s with input := rest }
    | none   => State.finish { s with input := rest } (State.raiseIllegalCommand { s with input := rest })

/-- `s` with a command word as the host's next event: the very next step takes exactly it (log entry 1). -/
def State.withFetchWord (s : State) (nbits w : Nat) : State :=
  { s with input := .command (tableWord nbits w) :: s.input }

end Sys2Proof.Machine
end

