-- ==== Sys2Proof/Machine/Assembler.lean ====
section
/-!
DEFINITION. The assembler (30_encoding.md R66 to R68): a line of text, as a list of characters, to the command
words it stands for.
-/

namespace Sys2Proof.Machine

/-- How an operand may be written: a number, or a colour, where the names RED and BLACK stand too (R68). -/
inductive OperandKind where
  | number
  | colour
  deriving DecidableEq, Repr

/-- The value of a digit in base 10 or 16. -/
def digitValue (base : Nat) (ch : Char) : Option Nat :=
  let n := ch.toNat
  let v :=
    if 48 ≤ n ∧ n ≤ 57 then n - 48            -- 0 to 9
    else if 65 ≤ n ∧ n ≤ 70 then n - 55       -- A to F
    else if 97 ≤ n ∧ n ≤ 102 then n - 87      -- a to f
    else base
  if v < base then some v else none

/-- The value of a digit string read on from `acc`. -/
def digitsValue (base acc : Nat) : List Char → Option Nat
  | []       => some acc
  | ch :: cs => (digitValue base ch).bind fun d => digitsValue base (acc * base + d) cs

/-- "a decimal integer with an optional leading `-`, or a hexadecimal integer with the prefix `0x`" (R66). -/
def parseInteger : List Char → Option Int
  | '0' :: 'x' :: d :: ds => (digitsValue 16 0 (d :: ds)).map fun n => (n : Int)
  | '-' :: d :: ds        => (digitsValue 10 0 (d :: ds)).map fun n => -(n : Int)
  | d :: ds               => (digitsValue 10 0 (d :: ds)).map fun n => (n : Int)
  | []                    => none

/-- The operand field of a value: `u32(v)` for `-2^31 ≤ v < 2^32`, nothing else assembles (R66). -/
def assembleValue (v : Int) : Option Word :=
  if -2147483648 ≤ v ∧ v < 4294967296 then some (BitVec.ofInt 32 v) else none

/-- The operand field of an operand's text. -/
def assembleOperand (kind : OperandKind) (text : List Char) : Option Word :=
  if kind = .colour ∧ text = "RED".toList then assembleValue 0xFF0000
  else if kind = .colour ∧ text = "BLACK".toList then assembleValue 0x000000
  else (parseInteger text).bind assembleValue

/-- The operand fields of a command's operands, which must be as many as its kinds. -/
def assembleOperands : List OperandKind → List (List Char) → Option (List Word)
  | [], []           => some []
  | k :: ks, t :: ts => (assembleOperand k t).bind fun w => (assembleOperands ks ts).map fun ws => w :: ws
  | _, _             => none

/-- A row of the assembler's table: mnemonic, opcode, operands in the order A, B, C, D (R62). -/
structure MnemonicRow where
  mnemonic : String
  opcode   : BitVec 8
  operands : List OperandKind
  deriving DecidableEq, Repr

/-- The mnemonics of R62, "in upper case" (R66). -/
def mnemonicTable : List MnemonicRow :=
  [ ⟨"PACK", 0x10, [.number, .number, .number]⟩,
    ⟨"UNPACKR", 0x11, [.colour]⟩,
    ⟨"UNPACKG", 0x12, [.colour]⟩,
    ⟨"UNPACKB", 0x13, [.colour]⟩,
    ⟨"HSL", 0x14, [.number, .number, .number]⟩,
    ⟨"MAPXYZ", 0x20, [.number, .number, .number]⟩,
    ⟨"SETPIX", 0x30, [.number, .colour]⟩,
    ⟨"SETXYZ", 0x31, [.number, .number, .number, .colour]⟩,
    ⟨"SETALL", 0x32, [.colour]⟩,
    ⟨"CLEAR", 0x33, []⟩ ] ++
  [ ⟨"SETBRIGHT", 0x34, [.number]⟩,
    ⟨"EASE", 0x35, []⟩,
    ⟨"SHIFT", 0x36, [.number]⟩,
    ⟨"ROTATE", 0x37, [.number]⟩,
    ⟨"LENGTH", 0x38, []⟩,
    ⟨"POWER", 0x39, []⟩,
    ⟨"GETPIX", 0x3A, [.number]⟩,
    ⟨"RAINBOW", 0x40, [.number, .number]⟩,
    ⟨"FLUSH", 0x50, []⟩ ]

/-- The words of a command or of the pseudo-instruction SHOWCOLOR, from its mnemonic and its operands' texts;
unused fields and `RSV` are 0 (R66, R67). -/
def assembleCommand (mnemonic : List Char) (operands : List (List Char)) : Option (List Command) :=
  if mnemonic = "SHOWCOLOR".toList then
    (assembleOperands [.colour] operands).map fun ws =>
      [makeWord 0x32#8 (ws.getD 0 0) 0 0 0, makeWord 0x50#8 0 0 0 0]
  else
    (mnemonicTable.find? fun r => r.mnemonic.toList = mnemonic).bind fun r =>
      (assembleOperands r.operands operands).map fun ws =>
        [makeWord r.opcode (ws.getD 0 0) (ws.getD 1 0) (ws.getD 2 0) (ws.getD 3 0)]

/-- The text without the blanks before and after it. -/
def trimBlanks (text : List Char) : List Char :=
  ((text.dropWhile (· = ' ')).reverse.dropWhile (· = ' ')).reverse

/-- The pieces of a text between its commas. -/
def splitCommas : List Char → List (List Char)
  | [] => [[]]
  | ch :: cs =>
    if ch = ',' then [] :: splitCommas cs
    else match splitCommas cs with
      | p :: ps => (ch :: p) :: ps
      | []      => [[ch]]

/-- The command words of one line: "mnemonic followed by its used operands …, separated by commas, one command
per line", with "A `;` starts a comment to the end of the line" (R66). A line with nothing but blanks and a comment
gives no word. -/
def assembleLine (line : List Char) : Option (List Command) :=
  let text := trimBlanks (line.takeWhile (· ≠ ';'))
  let operands := trimBlanks (text.dropWhile (· ≠ ' '))
  if text = [] then some []
  else assembleCommand (text.takeWhile (· ≠ ' '))
    (if operands = [] then [] else (splitCommas operands).map trimBlanks)

end Sys2Proof.Machine
end

