-- ==== Sys2Proof/Machine/Device.lean ====
section
/-!
DEFINITION. The operations of the source's Device and the commands that carry them (44_device_flush.md R142),
the pseudo-instruction SHOWCOLOR among them (30_encoding.md R67).
-/

namespace Sys2Proof.Machine

/-- A public operation of the source's Device (R142). -/
inductive DeviceOp where
  | showColor (rgb : Int)
  | setPixelColor (offset rgb : Int)
  | setPixelAt (x y z rgb : Int)
  | clear
  | setBrightness (b : Int)
  | easeBrightness
  | shift (offsetPixels : Int)
  | rotate (offsetPixels : Int)
  | power
  | length
  | fillRainbow (startHue endHue : Int)
  | flush
  | construction
  deriving DecidableEq, Repr

/-- `SHOWCOLOR rgb` expands to SETALL then FLUSH (30_encoding.md R67). -/
def showColor (rgb : Int) : List Instr := [.setAll rgb, .flush]

/-- What the host presents to carry out a Device operation: one command, the two of SHOWCOLOR, or reset (R142). -/
def deviceEvents : DeviceOp → List HostEvent
  | .showColor rgb        => (showColor rgb).map fun i => .command (encode i)
  | .setPixelColor o rgb  => [.command (encode (.setPix o rgb))]
  | .setPixelAt x y z rgb => [.command (encode (.setXyz x y z rgb))]
  | .clear                => [.command (encode .clear)]
  | .setBrightness b      => [.command (encode (.setBright b))]
  | .easeBrightness       => [.command (encode .ease)]
  | .shift n              => [.command (encode (.shift n))]
  | .rotate n             => [.command (encode (.rotate n))]
  | .power                => [.command (encode .power)]
  | .length               => [.command (encode .length)]
  | .fillRainbow h₁ h₂    => [.command (encode (.rainbow h₁ h₂))]
  | .flush                => [.command (encode .flush)]
  | .construction         => [.reset]

end Sys2Proof.Machine
end

