-- ==== Sys2Proof/Machine/Loops.lean ====
section
/-!
DEFINITION. The loops of CLEAR, SETALL, EASE, SHIFT, ROTATE and RAINBOW as their rules write them, one `MemWrite`
or `write_pixel` after another. The meanings store the whole range at once (`Memory.fill`), which costs one pass
over the memory; the obligations state that the two agree.
-/

namespace Sys2Proof.Machine

/-- The loop of SETALL (42_framebuffer_engine.md R114). -/
def setAllLoop (rgb : Int) (s : State) : State :=
  (List.range s.cfg.length).foldl (fun t k => t.writePixel k rgb) s

/-- The loop of CLEAR (R115). -/
def clearLoop (s : State) : State :=
  (List.range' (s.cfg.start * s.cfg.stride.bytes)
    (s.cfg.length * s.cfg.stride.bytes - s.cfg.start * s.cfg.stride.bytes)).foldl (fun t a => t.memWrite a 0#8) s

/-- A loop over the window's pixels `i` and each pixel's bytes `j`, upward. -/
def forWindow (s : State) (body : State → Nat → Nat → State) : State :=
  (List.range s.cfg.length).foldl
    (fun t i => (List.range s.cfg.stride.bytes).foldl (fun u j => body u i j) t) s

/-- The loop of EASE: each byte is read, scaled and stored back (R117). -/
def easeLoop (s : State) : State :=
  forWindow s fun t k j =>
    t.memWrite ((s.cfg.start + k) * s.cfg.stride.bytes + j)
      (easeByte (easeFactor s.cfg.length k) (t.memRead ((s.cfg.start + k) * s.cfg.stride.bytes + j)))

/-- The loop of SHIFT; `s` is "the contents of `FB` before the command" (R118). -/
def shiftLoop (n : Int) (s : State) : State :=
  forWindow s fun t i j =>
    let src := (i : Int) - n
    t.memWrite ((s.cfg.start + i) * s.cfg.stride.bytes + j)
      (if 0 ≤ src ∧ src < s.cfg.length then s.memRead ((s.cfg.start + src.toNat) * s.cfg.stride.bytes + j)
       else 0#8)

/-- The loop of ROTATE; `s` is "the contents of `FB` before the command" (R119). -/
def rotateLoop (n : Int) (s : State) : State :=
  if s.cfg.length = 0 then s
  else forWindow s fun t i j =>
    let src := ((i : Int) - n) % s.cfg.length
    t.memWrite ((s.cfg.start + i) * s.cfg.stride.bytes + j)
      (s.memRead ((s.cfg.start + src.toNat) * s.cfg.stride.bytes + j))

/-- The pseudocode of RAINBOW (43_rainbow_fill_unit.md R131). -/
def rainbowLoop (startHue endHue : Int) (s : State) : State :=
  let steps := s.cfg.length
  let hs := startHue % 360
  let he := endHue % 360
  let hStep := (he - hs) % 360 * 100 / (steps : Int)
  if steps = 0 then s
  else if steps = 1 then (s.writePixel 0 (hsl (hs + hStep) 100 50)).flushed
  else
    let first := s.writePixel 0 (hsl hs 100 50)
    let inner := (List.range' 1 (steps - 2)).foldl
      (fun t i => t.writePixel i (hsl ((hs * 100 + i * hStep) / 100) 100 50)) first
    (inner.writePixel ((steps - 1 : Nat) : Int) (hsl he 100 50)).flushed

end Sys2Proof.Machine
end

