-- ==== Sys2Proof/Safety.lean ====
section
/-!
DEFINITION. The terms the statements are made in: what a good state is, which command touches what, and the
rules' values written a second time in words of bits, independently of the meanings.
-/

namespace Sys2Proof.Machine

/-! ### Good states -/

/-- What every state a run can reach has: a configuration of this hardware (00_scope.md R4), a canonical frame buffer
with no byte outside `0 .. CAP*STRIDE - 1` (10_state.md R21, 20_memory.md R43), whole frames only (44_device_flush.md
R141), and a low idle line (10_state.md R26). -/
structure State.Inv (s : State) : Prop where
  legal     : s.cfg.Legal
  canonical : s.fb.wf
  inside    : ∀ c ∈ s.fb, c.1 < s.cfg.size
  frames    : ∀ f ∈ s.txlog, f.length = s.cfg.size
  lineLow   : s.txline = false

/-- Byte address `a` belongs to the window (20_memory.md R46). -/
abbrev WindowAddr (c : Config) (a : Nat) : Prop :=
  c.start * c.stride.bytes ≤ a ∧ a < (c.start + c.length) * c.stride.bytes

/-- "the bytes outside the window stay 0x00 for ever" (20_memory.md R46). -/
def State.DarkOutsideWindow (s : State) : Prop := ∀ a, ¬ WindowAddr s.cfg a → s.fb.read a = 0#8

/-- A W byte "stays 0 for ever" (42_framebuffer_engine.md R123); the W byte is byte 3 of a four-byte pixel. -/
def State.DarkWhite (s : State) : Prop := s.cfg.stride = .rgbw → ∀ a, a % 4 = 3 → s.fb.read a = 0#8

/-- `t` is `s` but for the contents of the frame buffer: `BRIGHT`, `RESULT`, `ERR`, the configuration, `TXLINE`,
`TXLOG` and the host's later events are the same. -/
def SameButFb (s t : State) : Prop := t = { s with fb := t.fb }

/-- `f` holds the whole backing buffer of `s`, ascending from byte 0 (44_device_flush.md R140, R141). -/
def IsFrameOf (f : Frame) (s : State) : Prop :=
  f.length = s.cfg.size ∧ ∀ a, a < s.cfg.size → f[a]? = some (s.fb.read a)

/-! ### What each command touches -/

/-- The commands marked "yes" in the RESULT column of 30_encoding.md R62. -/
def writesResult : Instr → Bool
  | .pack _ _ _ | .unpackR _ | .unpackG _ | .unpackB _ | .hsl _ _ _ | .mapXyz _ _ _ => true
  | .length | .power | .getPix _ => true
  | .setPix _ _ | .setXyz _ _ _ _ | .setAll _ | .clear | .setBright _ | .ease | .shift _ | .rotate _ => false
  | .rainbow _ _ | .flush => false

/-- The "range touched" by the writes of a command, the table of 20_memory.md R40. -/
def WriteRange (c : Config) (a : Nat) : Instr → Prop
  | .setPix o _       => (0 ≤ o ∧ o < c.length) ∧ (o.toNat + c.start) * c.stride.bytes ≤ a ∧
                          a ≤ (o.toNat + c.start) * c.stride.bytes + 2
  | .setXyz x y z _   =>
      (0 ≤ voxelOffset x y z ∧ voxelOffset x y z < c.length) ∧
        ((voxelOffset x y z).toNat + c.start) * c.stride.bytes ≤ a ∧
        a ≤ ((voxelOffset x y z).toNat + c.start) * c.stride.bytes + 2
  | .setAll _         => WindowAddr c a ∧ a % c.stride.bytes ≤ 2
  | .rainbow _ _      => WindowAddr c a ∧ a % c.stride.bytes ≤ 2
  | .clear            => c.start * c.stride.bytes ≤ a ∧ a < c.length * c.stride.bytes
  | .ease             => WindowAddr c a
  | .shift _          => WindowAddr c a
  | .rotate _         => WindowAddr c a
  | .pack _ _ _ | .unpackR _ | .unpackG _ | .unpackB _ | .hsl _ _ _ | .mapXyz _ _ _ => False
  | .setBright _ | .length | .power | .getPix _ | .flush => False

/-- Every word with opcode `op` and `RSV = 0` decodes to the command that `f` makes of its four operands; an operand
that `f` ignores has no effect (30_encoding.md R61, R62, R63). -/
def Selects (op : BitVec 8) (f : Int → Int → Int → Int → Instr) : Prop :=
  ∀ w : Command, opc w = op → rsv w = 0#24 →
    decode w = some (f (fieldA w).toInt (fieldB w).toInt (fieldC w).toInt (fieldD w).toInt)

/-- The 19 opcodes of 30_encoding.md R62. -/
def assignedOpcodes : List (BitVec 8) :=
  [0x10#8, 0x11#8, 0x12#8, 0x13#8, 0x14#8, 0x20#8, 0x30#8, 0x31#8, 0x32#8, 0x33#8, 0x34#8, 0x35#8, 0x36#8, 0x37#8,
    0x38#8, 0x39#8, 0x3A#8, 0x40#8, 0x50#8]

/-! ### The rules' values in words of bits -/

/-- Channel `j` (0 red, 1 green, 2 blue) of a packed colour in a 32-bit operand: bits 23:16, 15:8, 7:0, bits 31:24
ignored (20_memory.md R42). -/
def channelOf (rgb : Int) (j : Nat) : Byte := (BitVec.ofInt 32 rgb).extractLsb' (16 - 8 * j) 8

/-- A channel at brightness `bright`: unchanged at 255, else the high byte of the 16-bit product
(42_framebuffer_engine.md R110). -/
def dimmed (bright ch : Byte) : Byte :=
  if bright = 255#8 then ch else BitVec.ofNat 8 (ch.toNat * bright.toNat / 256)

/-- A colour as RESULT carries it: three bytes below eight zero bits (30_encoding.md R69). -/
def rgbWord (r g b : Byte) : Word := 0#8 ++ r ++ g ++ b

/-- What `write_pixel(o, rgb)` makes of the frame buffer (42_framebuffer_engine.md R110, R111), byte by byte:
nothing for an offset outside the window, else the three scaled channels at `(o + START) * STRIDE`, and every other
byte, the W byte included, unchanged. -/
def PixelWritten (s t : State) (o rgb : Int) : Prop :=
  ∀ a, t.fb.read a =
    if 0 ≤ o ∧ o < s.cfg.length ∧ (o + s.cfg.start) * s.cfg.stride.bytes ≤ a ∧
        (a : Int) ≤ (o + s.cfg.start) * s.cfg.stride.bytes + 2 then
      dimmed s.bright (channelOf rgb (a - (o.toNat + s.cfg.start) * s.cfg.stride.bytes))
    else s.fb.read a

/-- `hsl(h, s, l)` for a reduced hue and clamped saturation and luminance, channel by channel: chroma `c` at the
dominant channel, `x` at the second, 0 at the third, and `m` added to each (40_color_model.md R82). -/
def hslChannels (h s l : Int) : Int × Int × Int :=
  let c  := (100 - |2 * l - 100|) * s * 256 / 10000
  let up := c * (h % 60 * 256 / 60) / 256
  let dn := c * (256 - h % 60 * 256 / 60) / 256
  let m  := (2 * l * 256 / 100 - c) / 2
  if h < 60 then (c + m, up + m, m)
  else if h < 120 then (dn + m, c + m, m)
  else if h < 180 then (m, c + m, up + m)
  else if h < 240 then (m, dn + m, c + m)
  else if h < 300 then (up + m, m, c + m)
  else (c + m, m, dn + m)

end Sys2Proof.Machine
end

