-- ==== Sys2Proof/Certificates/Slice0/Obligations.lean ====
section
/-!
DEFINITION. The statements for the provers, one `def Obligations.<Name> : Prop` each. Rule numbers are those of
spec/; "D<n>" is a decision of spec/92_eei_decisions.md, which the cited rule carries.
-/

open Sys2Proof Sys2Proof.Machine

/-! ### Reset, steps, invariants -/

/-- R30 (with D8, D9): what every piece of state holds after reset, for any configured values, and this hardware's
values. -/
def Obligations.ResetStateHoldsTheSpecValues : Prop :=
  (∀ (c : Config) (ev : List HostEvent),
    (∀ a, (State.resetWith c ev).fb.read a = 0#8) ∧ (State.resetWith c ev).bright = 255#8 ∧
    (State.resetWith c ev).result = 0#32 ∧ (State.resetWith c ev).err = false ∧ (State.resetWith c ev).cfg = c ∧
    (State.resetWith c ev).txline = false ∧ (State.resetWith c ev).txlog = []) ∧
  State.reset = State.resetWith ⟨0, 512, .rgb⟩ [] ∧ Stride.rgb.bytes = 3 ∧ Config.cap = 512

/-- R170, R155: a reset puts every piece of state at its reset value, whatever it was, keeps the configuration and
sends nothing. How a reset reaches the block is the model's choice (log entry 1). -/
def Obligations.ResetEventRestoresTheResetState : Prop :=
  ∀ (s : State) (rest : List HostEvent), s.cfg.Legal → s.input = .reset :: rest →
    ∃ t, step s = .next t ∧ (∀ a, t.fb.read a = 0#8) ∧ t.bright = 255#8 ∧ t.result = 0#32 ∧ t.err = false ∧
      t.cfg = s.cfg ∧ t.txline = false ∧ t.txlog = [] ∧ t.input = rest

/-- The invariants of this file hold right after reset of any legal configuration. -/
def Obligations.ResetStateMeetsTheInvariants : Prop :=
  ∀ (c : Config) (ev : List HostEvent), c.Legal →
    (State.resetWith c ev).Inv ∧ (State.resetWith c ev).DarkOutsideWindow ∧ (State.resetWith c ev).DarkWhite

/-- Every step, of every command, illegal word or reset, keeps the configuration legal, the frame buffer canonical and
inside its `CAP*STRIDE` bytes, every logged frame whole and the idle line low. -/
def Obligations.EveryStepKeepsTheInvariant : Prop :=
  ∀ s t : State, s.Inv → step s = .next t → t.Inv

/-- R46 (derived there): the bytes outside the window stay 0x00. -/
def Obligations.EveryStepKeepsTheOutsideDark : Prop :=
  ∀ s t : State, s.DarkOutsideWindow → step s = .next t → t.DarkOutsideWindow

/-- R123 (derived there): with `STRIDE = 4` the W bytes stay 0. -/
def Obligations.EveryStepKeepsTheWhiteChannelDark : Prop :=
  ∀ s t : State, s.DarkWhite → step s = .next t → t.DarkWhite

/-- A step on a word that decodes to `i` is `exec i` on the state whose host has used up that word; the word that
`withFetchWord` presents is the one the next step takes. The event list is the model's own (log entry 1). -/
def Obligations.StepExecutesTheDecodedCommand : Prop :=
  (∀ (s : State) (w : Command) (rest : List HostEvent) (i : Instr),
    s.input = .command w :: rest → decode w = some i → step s = exec i { s with input := rest }) ∧
  (∀ (s : State) (nbits w : Nat) (i : Instr),
    decodeTableWord nbits w = some i → step (s.withFetchWord nbits w) = exec i s)

/-- R151, R155 (decision D6): the one exception. `ERR <- 1` and nothing else changes; a second illegal word changes
nothing at all; later legal commands run as they would have, and leave `ERR` at 1. The model's own: the word is used up
(`input := rest`, log entries 1 and 11), and the cause code, 1 or 0, is computed from `ERR` (log entry 11). -/
def Obligations.IllegalWordOnlySetsErr : Prop :=
  ∀ (s : State) (w : Command) (rest : List HostEvent), s.cfg.Legal → s.input = .command w :: rest →
    (rsv w ≠ 0#24 ∨ opc w ∉ assignedOpcodes) →
    step s = .next { s with input := rest, err := true } ∧
    State.causeCode { s with input := rest, err := true } = 1 ∧ State.causeCode { s with err := false } = 0 ∧
    (s.err = true → step s = .next { s with input := rest }) ∧
    ∀ i : Instr, ∃ u, exec i { s with input := rest } = .next u ∧
      exec i { s with input := rest, err := true } = .next { u with err := true }

/-- R157: an idle block holds its state. That a block is idle when the list of events is empty is the model's (log
entry 1). -/
def Obligations.IdleBlockHoldsItsState : Prop :=
  ∀ s : State, s.cfg.Legal → s.input = [] → step s = .next s

/-- R150: no legal command stops or reports an error, whatever its operands. -/
def Obligations.NoLegalCommandStopsOrReports : Prop :=
  ∀ (i : Instr) (s : State), s.cfg.Legal → ∃ t, exec i s = .next t ∧ t.err = s.err ∧ t.errOutput = s.errOutput

/-- R172, R175, R25: every command completes and leaves the configuration alone. The model's own: a step takes one event
of the list, a reset among them, and an idle step takes none (`t.input = s.input.tail`, log entry 1). -/
def Obligations.EveryStepCompletes : Prop :=
  ∀ s : State, s.cfg.Legal → ∃ t, step s = .next t ∧ t.cfg = s.cfg ∧ t.input = s.input.tail

/-- R4 and 93_implementation_defined.md U12: a configuration that breaks `START + LENGTH ≤ CAP` is refused, by every
command and every step (log entry 3). -/
def Obligations.IllegalConfigurationIsRefused : Prop :=
  ∀ s : State, ¬ s.cfg.Legal →
    (∀ i, exec i s = .refused .illegalConfiguration) ∧ step s = .refused .illegalConfiguration

/-- R24: `ERR` is set by an illegal word, cleared by reset, and otherwise kept. The cases are those of the model's event
list (log entry 1). -/
def Obligations.ErrIsStickyUntilReset : Prop :=
  ∀ s t : State, step s = .next t →
    t.errOutput =
      match s.input with
      | []              => s.errOutput
      | .reset :: _     => false
      | .command w :: _ => s.errOutput || !(decide (rsv w = 0#24) && decide (opc w ∈ assignedOpcodes))

/-- R22: only SETBRIGHT writes `BRIGHT`. -/
def Obligations.OnlySetbrightChangesBright : Prop :=
  ∀ (i : Instr) (s t : State), exec i s = .next t → (∀ b, i ≠ .setBright b) → t.bright = s.bright

/-- R23, R69: a command that is not result-producing leaves `RESULT` unchanged. -/
def Obligations.OnlyResultCommandsChangeResult : Prop :=
  ∀ (i : Instr) (s t : State), exec i s = .next t → writesResult i = false → t.result = s.result

/-- R20, R140, R48: `TXLOG` only grows, by one frame, on FLUSH and RAINBOW; the frame is the buffer as the command
leaves it. -/
def Obligations.TxlogGrowsOnlyByOneWholeFrame : Prop :=
  ∀ (i : Instr) (s t : State), exec i s = .next t →
    t.txlog = s.txlog ∨
    ((i = .flush ∨ ∃ a b, i = .rainbow a b) ∧ ∃ f, t.txlog = s.txlog ++ [f] ∧ IsFrameOf f t)

/-- R40: a command changes no byte outside the range its row of the table gives. -/
def Obligations.FrameBufferChangesOnlyInTheTabulatedRange : Prop :=
  ∀ (i : Instr) (s t : State) (a : Nat), exec i s = .next t → ¬ WriteRange s.cfg a i → t.fb.read a = s.fb.read a

/-- R25, R26: no command changes the configuration, the idle level, or (the model's own field) the later events. -/
def Obligations.CommandsKeepConfigurationAndLine : Prop :=
  ∀ (i : Instr) (s t : State), exec i s = .next t → t.cfg = s.cfg ∧ t.txline = s.txline ∧ t.input = s.input

/-- R20, R24, R26: nothing reads `RESULT`, `ERR` or `TXLINE`: steps from states that differ only in them send the same
frames and hold the same buffer and brightness. The steps are over the model's event list (log entry 1). -/
def Obligations.ResultAndErrNeverReachTheOutput : Prop :=
  ∀ (s t : State) (r : Word) (e l : Bool), step s = .next t →
    ∃ u, step { s with result := r, err := e, txline := l } = .next u ∧
      u = { t with result := u.result, err := u.err, txline := u.txline }

/-! ### Encoding -/

/-- R64 (decision D6): a word is legal exactly when `RSV = 0` and `OPC` is assigned; every other word raises
`IllegalCommand`, which changes no state but `ERR`; the all-zero and the all-ones word are illegal. That the step uses up
the word (`input := rest`) is the model's (log entries 1 and 11). -/
def Obligations.LegalWordsAreExactlyTheTable : Prop :=
  (∀ w : Command, (decode w).isSome = true ↔ rsv w = 0#24 ∧ opc w ∈ assignedOpcodes) ∧
  (∀ (s : State) (w : Command) (rest : List HostEvent), s.cfg.Legal → s.input = .command w :: rest →
    ¬ (rsv w = 0#24 ∧ opc w ∈ assignedOpcodes) → step s = .next { s with input := rest, err := true }) ∧
  decode 0#160 = none ∧ decode (BitVec.allOnes 160) = none

/-- R62, R61, R63: each opcode with `RSV = 0` selects its command, with the operands its row uses read as signed
fields, and the unused fields ignored. -/
def Obligations.OpcodesSelectTheirCommands : Prop :=
  Selects 0x10#8 (fun a b c _ => .pack a b c) ∧ Selects 0x11#8 (fun a _ _ _ => .unpackR a) ∧
  Selects 0x12#8 (fun a _ _ _ => .unpackG a) ∧ Selects 0x13#8 (fun a _ _ _ => .unpackB a) ∧
  Selects 0x14#8 (fun a b c _ => .hsl a b c) ∧ Selects 0x20#8 (fun a b c _ => .mapXyz a b c) ∧
  Selects 0x30#8 (fun a b _ _ => .setPix a b) ∧ Selects 0x31#8 (fun a b c d => .setXyz a b c d) ∧
  Selects 0x32#8 (fun a _ _ _ => .setAll a) ∧ Selects 0x33#8 (fun _ _ _ _ => .clear) ∧
  Selects 0x34#8 (fun a _ _ _ => .setBright a) ∧ Selects 0x35#8 (fun _ _ _ _ => .ease) ∧
  Selects 0x36#8 (fun a _ _ _ => .shift a) ∧ Selects 0x37#8 (fun a _ _ _ => .rotate a) ∧
  Selects 0x38#8 (fun _ _ _ _ => .length) ∧ Selects 0x39#8 (fun _ _ _ _ => .power) ∧
  Selects 0x3A#8 (fun a _ _ _ => .getPix a) ∧ Selects 0x40#8 (fun a b _ _ => .rainbow a b) ∧
  Selects 0x50#8 (fun _ _ _ _ => .flush)

/-- Decoding the word of a well-formed command gives the command back: no bit of an operand is dropped. -/
def Obligations.DecodeOfEncodeIsIdentity : Prop :=
  ∀ i : Instr, i.WellFormed → decode (encode i) = some i

/-- R61: a decoded command is well formed, carries the word's opcode, and its operands are the word's leading fields
read as two's complement. -/
def Obligations.DecodedCommandsAreWellFormed : Prop :=
  ∀ (w : Command) (i : Instr), decode w = some i →
    i.WellFormed ∧ opcodeOf i = opc w ∧
    i.operands = [(fieldA w).toInt, (fieldB w).toInt, (fieldC w).toInt, (fieldD w).toInt].take i.operands.length

/-- R60, R61, R62: words written out digit by digit decode to what they stand for, negative operands among them. In
order they are words of 95_test_vectors.md V1.1, V1.2, V2.7, V5.1 (two), V5.2, V4.1, V5.6 and V5.3. -/
def Obligations.WrittenOutWordsDecode : Prop :=
  decode 0x10000000000000FF000000800000000100000000#160 = some (.pack 255 128 1) ∧
  decode 0x1400000000000078000000640000003200000000#160 = some (.hsl 120 100 50) ∧
  decode 0x20000000FFFFFFFF000000000000000000000000#160 = some (.mapXyz (-1) 0 0) ∧
  decode 0x310000000000000100000005000000000000FF00#160 = some (.setXyz 1 5 0 0x00FF00) ∧
  decode 0x36000000FFFFFFFE000000000000000000000000#160 = some (.shift (-2)) ∧
  decode 0x38000000DEADBEEF12345678FFFFFFFF00000001#160 = some .length ∧
  decode 0x4000000000000001000001680000000000000000#160 = some (.rainbow 1 360) ∧
  decode 0x5000000000000000000000000000000000000000#160 = some .flush ∧
  decode 0x3800000100000000000000000000000000000000#160 = none

/-- R66, R67, R68, in samples: an operand value assembles to `u32(v)` exactly in the range `-2^31 ≤ v < 2^32`; the example
line of R66; SHOWCOLOR with a named colour and a comment. That blanks may stand round the comment and the operands is
the model's choice (log entry 7). -/
def Obligations.OperandRangeAndSampleLinesAssemble : Prop :=
  (∀ v : Int, assembleValue v =
    if -2147483648 ≤ v ∧ v < 4294967296 then some (BitVec.ofInt 32 v) else none) ∧
  assembleLine "SETXYZ 1, 5, 0, 0x00FF00".toList =
    some [0x310000000000000100000005000000000000FF00#160] ∧
  assembleLine "SHOWCOLOR RED ; all pixels".toList =
    some [0x3200000000FF0000000000000000000000000000#160, 0x5000000000000000000000000000000000000000#160]

/-! ### color_model -/

/-- R84 with R80: PACK writes `0x00RRGGBB` from the low bytes of its operands and nothing else. -/
def Obligations.PackConcatenatesLowBytes : Prop :=
  Selects 0x10#8 (fun a b c _ => .pack a b c) ∧
  ∀ (r g b : Int) (s : State), s.cfg.Legal →
    exec (.pack r g b) s =
      .next { s with result := rgbWord (BitVec.ofInt 8 r) (BitVec.ofInt 8 g) (BitVec.ofInt 8 b) }

/-- R85, R86, R87 with R81: UNPACKR, UNPACKG, UNPACKB write the channel of the operand's 32-bit pattern, zero-extended,
and nothing else. -/
def Obligations.UnpackExtractsTheChannel : Prop :=
  Selects 0x11#8 (fun a _ _ _ => .unpackR a) ∧ Selects 0x12#8 (fun a _ _ _ => .unpackG a) ∧
  Selects 0x13#8 (fun a _ _ _ => .unpackB a) ∧
  ∀ (rgb : Int) (s : State), s.cfg.Legal →
    exec (.unpackR rgb) s = .next { s with result := (BitVec.ofInt 32 rgb >>> 16) &&& 0xFF#32 } ∧
    exec (.unpackG rgb) s = .next { s with result := (BitVec.ofInt 32 rgb >>> 8) &&& 0xFF#32 } ∧
    exec (.unpackB rgb) s = .next { s with result := BitVec.ofInt 32 rgb &&& 0xFF#32 }

/-- R81: packing the three unpacked channels gives the low 24 bits of the colour back. -/
def Obligations.PackOfUnpackGivesTheColourBack : Prop :=
  ∀ (rgb : Int) (s : State), s.cfg.Legal → ∃ r g b t : State,
    exec (.unpackR rgb) s = .next r ∧ exec (.unpackG rgb) s = .next g ∧ exec (.unpackB rgb) s = .next b ∧
    exec (.pack r.result.toNat g.result.toNat b.result.toNat) s = .next t ∧
    t.result = BitVec.ofInt 32 rgb &&& 0xFFFFFF#32

/-- R88, R82, R83: HSL writes the colour of its reduced hue and clamped saturation and luminance, every channel in
`0 .. 255` before packing. The lines for the second component are the spec's decision D12, from general knowledge. -/
def Obligations.HslReturnsTheSectorColour : Prop :=
  Selects 0x14#8 (fun a b c _ => .hsl a b c) ∧
  ∀ (h sat l : Int) (s : State), s.cfg.Legal →
    let q := hslChannels (h % 360) (max 0 (min sat 99)) (max 0 (min l 99))
    (0 ≤ q.1 ∧ q.1 ≤ 255) ∧ (0 ≤ q.2.1 ∧ q.2.1 ≤ 255) ∧ (0 ≤ q.2.2 ∧ q.2.2 ≤ 255) ∧
    exec (.hsl h sat l) s =
      .next { s with result := rgbWord (BitVec.ofInt 8 q.1) (BitVec.ofInt 8 q.2.1) (BitVec.ofInt 8 q.2.2) }

/-- R83, R88: the hue counts modulo 360 only, saturation and luminance outside `0 .. 99` act as the nearer bound, and
without saturation the hue does not matter. -/
def Obligations.HslWrapsHueAndClampsTheRest : Prop :=
  ∀ (h k sat l : Int) (s : State),
    exec (.hsl (h + 360 * k) sat l) s = exec (.hsl h sat l) s ∧
    (sat ≤ 0 → exec (.hsl h sat l) s = exec (.hsl (h + k) 0 l) s) ∧
    (99 ≤ sat → exec (.hsl h sat l) s = exec (.hsl h 99 l) s) ∧
    (l ≤ 0 → exec (.hsl h sat l) s = exec (.hsl h sat 0) s) ∧
    (99 ≤ l → exec (.hsl h sat l) s = exec (.hsl h sat 99) s)

/-! ### coordinate_mapper -/

/-- R103 (D7, D22) with R100, R102: MAPXYZ computes, on 32-bit patterns with bit 0 as the parity, the literal three steps. -/
def Obligations.MapxyzComputesTheLiteralOffset : Prop :=
  Selects 0x20#8 (fun a b c _ => .mapXyz a b c) ∧
  ∀ (x y z : Int) (s : State), s.cfg.Legal →
    let x' : Word := if (BitVec.ofInt 32 z).getLsbD 0 then 7#32 - BitVec.ofInt 32 x else BitVec.ofInt 32 x
    let y' : Word := if x'.getLsbD 0 then 7#32 - x' else BitVec.ofInt 32 y
    exec (.mapXyz x y z) s = .next { s with result := BitVec.ofInt 32 z * 64#32 + x' * 8#32 + y' }

/-- R101 (derived there): for a voxel of the cube the offset lies in its layer, at most 504, and for an odd reflected `x`
it does not depend on `y`. -/
def Obligations.MapperStaysInTheCube : Prop :=
  ∀ (x y z : Nat) (s : State), s.cfg.Legal → x < Config.grid → y < Config.grid → z < Config.grid →
    let x' := if z % 2 = 1 then 7 - x else x
    ∃ t, exec (.mapXyz x y z) s = .next t ∧ t.result.toNat ≤ 504 ∧
      t.result.toNat = if x' % 2 = 1 then 64 * z + 7 * x' + 7 else 64 * z + 8 * x' + y

/-! ### framebuffer_engine -/

/-- R112, R111, R110: SETPIX stores the three scaled channels of a window pixel, or nothing, and changes nothing
else. -/
def Obligations.SetpixWritesOnePixel : Prop :=
  Selects 0x30#8 (fun a b _ _ => .setPix a b) ∧
  ∀ (o rgb : Int) (s : State), s.cfg.Legal →
    ∃ t, exec (.setPix o rgb) s = .next t ∧ SameButFb s t ∧ PixelWritten s t o rgb

/-- R113: SETXYZ stores the pixel at the exact mapped offset, or nothing, and changes nothing else. -/
def Obligations.SetxyzWritesTheMappedPixel : Prop :=
  Selects 0x31#8 (fun a b c d => .setXyz a b c d) ∧
  ∀ (x y z rgb : Int) (s : State), s.cfg.Legal →
    let x' := if z % 2 = 1 then 7 - x else x
    let y' := if x' % 2 = 1 then 7 - x' else y
    ∃ t, exec (.setXyz x y z rgb) s = .next t ∧ SameButFb s t ∧ PixelWritten s t (z * 64 + x' * 8 + y') rgb

/-- R114: SETALL stores the scaled colour in bytes 0, 1, 2 of every window pixel and changes nothing else. -/
def Obligations.SetallPaintsTheWindow : Prop :=
  Selects 0x32#8 (fun a _ _ _ => .setAll a) ∧
  ∀ (rgb : Int) (s : State), s.cfg.Legal →
    ∃ t, exec (.setAll rgb) s = .next t ∧ SameButFb s t ∧
      ∀ a, t.fb.read a =
        if WindowAddr s.cfg a ∧ a % s.cfg.stride.bytes < 3 then
          dimmed s.bright (channelOf rgb (a % s.cfg.stride.bytes))
        else s.fb.read a

/-- R115 (D18): CLEAR zeroes the literal half-open byte range `START*STRIDE .. LENGTH*STRIDE` and changes nothing else. -/
def Obligations.ClearZeroesTheLiteralRange : Prop :=
  Selects 0x33#8 (fun _ _ _ _ => .clear) ∧
  ∀ s : State, s.cfg.Legal →
    ∃ t, exec .clear s = .next t ∧ SameButFb s t ∧
      ∀ a, t.fb.read a =
        if s.cfg.start * s.cfg.stride.bytes ≤ a ∧ a < s.cfg.length * s.cfg.stride.bytes then 0#8
        else s.fb.read a

/-- R116: SETBRIGHT stores the low byte of its operand and changes nothing else. -/
def Obligations.SetbrightStoresTheLowByte : Prop :=
  Selects 0x34#8 (fun a _ _ _ => .setBright a) ∧
  ∀ (b : Int) (s : State), s.cfg.Legal → exec (.setBright b) s = .next { s with bright := BitVec.ofInt 8 b }

/-- R117: EASE scales every byte of window pixel `k` by `br` and changes nothing else; for a window of one pixel `br` is
0, which the rule takes from the spec's decision D19. -/
def Obligations.EaseScalesEveryWindowByte : Prop :=
  Selects 0x35#8 (fun _ _ _ _ => .ease) ∧
  ∀ s : State, s.cfg.Legal →
    ∃ t, exec .ease s = .next t ∧ SameButFb s t ∧
      ∀ a, t.fb.read a =
        if WindowAddr s.cfg a then
          let k := a / s.cfg.stride.bytes - s.cfg.start
          let mid := s.cfg.length / 2
          let br :=
            if mid = 0 then 0
            else if k ≤ mid then 255 * k ^ 2 / mid ^ 2
            else 255 * (s.cfg.length - 1 - k) ^ 2 / mid ^ 2
          BitVec.ofNat 8 ((s.fb.read a).toNat * br / 256)
        else s.fb.read a

/-- R118 (D20): SHIFT moves whole pixels by `n`, zeroes the vacated ones, and changes nothing else. -/
def Obligations.ShiftMovesWholePixels : Prop :=
  Selects 0x36#8 (fun a _ _ _ => .shift a) ∧
  ∀ (n : Int) (s : State), s.cfg.Legal →
    ∃ t, exec (.shift n) s = .next t ∧ SameButFb s t ∧
      (∀ k j, k < s.cfg.length → j < s.cfg.stride.bytes →
        t.fb.read ((s.cfg.start + k) * s.cfg.stride.bytes + j) =
          if 0 ≤ (k : Int) - n ∧ (k : Int) - n < s.cfg.length then
            s.fb.read ((s.cfg.start + ((k : Int) - n).toNat) * s.cfg.stride.bytes + j)
          else 0#8) ∧
      ∀ a, ¬ WindowAddr s.cfg a → t.fb.read a = s.fb.read a

/-- R118: a shift and the shift by the negated offset bring back the pixels that stayed in the window, zero the others,
and change nothing else. -/
def Obligations.ShiftBackRestoresTheSurvivors : Prop :=
  ∀ (n : Int) (s : State), s.cfg.Legal →
    ∃ t u, exec (.shift n) s = .next t ∧ exec (.shift (-n)) t = .next u ∧ SameButFb s u ∧
      (∀ k j, k < s.cfg.length → j < s.cfg.stride.bytes →
        u.fb.read ((s.cfg.start + k) * s.cfg.stride.bytes + j) =
          if 0 ≤ (k : Int) + n ∧ (k : Int) + n < s.cfg.length then
            s.fb.read ((s.cfg.start + k) * s.cfg.stride.bytes + j)
          else 0#8) ∧
      ∀ a, ¬ WindowAddr s.cfg a → u.fb.read a = s.fb.read a

/-- R119 (D20): ROTATE moves whole pixels by `n` modulo `LENGTH` and changes nothing else. -/
def Obligations.RotateMovesWholePixels : Prop :=
  Selects 0x37#8 (fun a _ _ _ => .rotate a) ∧
  ∀ (n : Int) (s : State), s.cfg.Legal →
    ∃ t, exec (.rotate n) s = .next t ∧ SameButFb s t ∧
      (∀ k j, k < s.cfg.length → j < s.cfg.stride.bytes →
        t.fb.read ((s.cfg.start + k) * s.cfg.stride.bytes + j) =
          s.fb.read ((s.cfg.start + (((k : Int) - n) % s.cfg.length).toNat) * s.cfg.stride.bytes + j)) ∧
      ∀ a, ¬ WindowAddr s.cfg a → t.fb.read a = s.fb.read a

/-- R119: "`ROTATE n` followed by `ROTATE -n` restores `FB` exactly", and a rotate by any multiple of `LENGTH` is the
identity, as states. -/
def Obligations.RotateBackIsTheIdentity : Prop :=
  ∀ (n m : Int) (s : State), s.Inv →
    (∃ t, exec (.rotate n) s = .next t ∧ exec (.rotate (-n)) t = .next s) ∧
    exec (.rotate (m * s.cfg.length)) s = .next s

/-- R120: LENGTH returns the window's pixel count and changes nothing else. -/
def Obligations.LengthReturnsThePixelCount : Prop :=
  Selects 0x38#8 (fun _ _ _ _ => .length) ∧
  ∀ s : State, s.cfg.Legal →
    ∃ t, exec .length s = .next t ∧ t = { s with result := t.result } ∧ t.result.toNat = s.cfg.length

/-- R121 (D21): POWER returns the idle term plus the lit term, each floored, of the window's bytes, and changes nothing
else. -/
def Obligations.PowerEstimatesTheCurrent : Prop :=
  Selects 0x39#8 (fun _ _ _ _ => .power) ∧
  ∀ s : State, s.cfg.Legal →
    ∃ t, exec .power s = .next t ∧ t = { s with result := t.result } ∧
      t.result.toNat = s.cfg.length / 2 +
        (∑ a ∈ Finset.Ico (s.cfg.start * s.cfg.stride.bytes) ((s.cfg.start + s.cfg.length) * s.cfg.stride.bytes),
          (s.fb.read a).toNat) * 433 / 10000

/-- R121: with `START = 0`, CLEAR then POWER returns exactly `LENGTH div 2`. -/
def Obligations.PowerAfterClearIsTheIdleDraw : Prop :=
  ∀ s : State, s.cfg.Legal → s.cfg.start = 0 →
    ∃ t u, exec .clear s = .next t ∧ exec .power t = .next u ∧ u.result.toNat = s.cfg.length / 2

/-- R122 (D11): GETPIX returns the stored bytes of a window pixel, 0 outside the window, and changes nothing else. -/
def Obligations.GetpixReturnsTheStoredBytes : Prop :=
  Selects 0x3A#8 (fun a _ _ _ => .getPix a) ∧
  ∀ (o : Int) (s : State), s.cfg.Legal →
    let a := (o.toNat + s.cfg.start) * s.cfg.stride.bytes
    exec (.getPix o) s = .next { s with result :=
      if 0 ≤ o ∧ o < s.cfg.length then rgbWord (s.fb.read a) (s.fb.read (a + 1)) (s.fb.read (a + 2)) else 0#32 }

/-- R112, R122, R110: at brightness 255 a window pixel reads back as the low 24 bits of the colour written. -/
def Obligations.GetpixAfterSetpixAtFullBrightness : Prop :=
  ∀ (o rgb : Int) (s : State), s.cfg.Legal → s.bright = 255#8 → 0 ≤ o → o < s.cfg.length →
    ∃ t u, exec (.setPix o rgb) s = .next t ∧ exec (.getPix o) t = .next u ∧
      u.result = BitVec.ofInt 32 rgb &&& 0xFFFFFF#32

/-! ### Flush and rainbow -/

/-- R140, R141 (D10): FLUSH appends one frame, the whole backing buffer in ascending order, and changes nothing else. -/
def Obligations.FlushSendsTheBackingBuffer : Prop :=
  Selects 0x50#8 (fun _ _ _ _ => .flush) ∧
  ∀ s : State, s.cfg.Legal →
    ∃ f, IsFrameOf f s ∧ exec .flush s = .next { s with txlog := s.txlog ++ [f] }

/-- R131, R130: RAINBOW paints window pixel `k` with the colour of its hue at saturation 100 (which acts as 99) and
luminance 50, scaled by `BRIGHT`, then sends one frame of the painted buffer, and changes nothing else; an empty window
is left alone and nothing is sent. Rests on the spec's decisions D12, D14, D15, D17. -/
def Obligations.RainbowPaintsTheGradientAndFlushes : Prop :=
  Selects 0x40#8 (fun a b _ _ => .rainbow a b) ∧
  ∀ (startHue endHue : Int) (s : State), s.cfg.Legal →
    (s.cfg.length = 0 → exec (.rainbow startHue endHue) s = .next s) ∧
    (0 < s.cfg.length → ∃ t f, exec (.rainbow startHue endHue) s = .next t ∧ IsFrameOf f t ∧
      t = { s with fb := t.fb, txlog := s.txlog ++ [f] } ∧
      ∀ a, t.fb.read a =
        if WindowAddr s.cfg a ∧ a % s.cfg.stride.bytes < 3 then
          let k := a / s.cfg.stride.bytes - s.cfg.start
          let hs := startHue % 360
          let he := endHue % 360
          let hStep := (he - hs) % 360 * 100 / (s.cfg.length : Int)
          let hue :=
            if s.cfg.length = 1 then hs + hStep
            else if k = 0 then hs
            else if k + 1 = s.cfg.length then he
            else (hs * 100 + k * hStep) / 100
          let q := hslChannels (hue % 360) 99 50
          dimmed s.bright (BitVec.ofInt 8
            (if a % s.cfg.stride.bytes = 0 then q.1 else if a % s.cfg.stride.bytes = 1 then q.2.1 else q.2.2))
        else s.fb.read a)

/-- R131 (derived there): the unreduced hues of a window of two or more pixels never decrease from pixel to pixel, and
the last, `hs + dist`, is the end hue modulo 360. -/
def Obligations.RainbowHuesNeverDecrease : Prop :=
  ∀ (startHue endHue : Int) (steps i : Nat), 2 ≤ steps → i + 2 ≤ steps →
    let last := startHue % 360 + (endHue % 360 - startHue % 360) % 360
    rainbowHue startHue endHue steps i ≤ (if i + 2 = steps then last else rainbowHue startHue endHue steps (i + 1)) ∧
    rainbowHue startHue endHue steps (steps - 1) = last % 360

/-- R67, R142: the two commands of SHOWCOLOR paint the window and send one frame that shows it. The host presents them as
events of the model's list (log entry 1). -/
def Obligations.ShowcolorPaintsAndSendsOneFrame : Prop :=
  ∀ (rgb : Int) (s : State) (rest : List HostEvent), s.cfg.Legal → InOperandRange rgb →
    s.input = deviceEvents (.showColor rgb) ++ rest →
    ∃ t u f, step s = .next t ∧ step t = .next u ∧ IsFrameOf f u ∧
      u = { s with fb := u.fb, txlog := s.txlog ++ [f], input := rest } ∧
      ∀ a, u.fb.read a =
        if WindowAddr s.cfg a ∧ a % s.cfg.stride.bytes < 3 then
          dimmed s.bright (channelOf rgb (a % s.cfg.stride.bytes))
        else s.fb.read a

/-! ### The meanings and the loops of the rules -/

/-- R114, R115, R131: SETALL, CLEAR and RAINBOW, which the model stores in one operation (log entry 4), leave exactly the
state that their loops leave, one `write_pixel` or `MemWrite` after another as the rules write them. -/
def Obligations.FillsMatchTheirLoops : Prop :=
  ∀ s : State, s.Inv →
    (∀ rgb, exec (.setAll rgb) s = .next (setAllLoop rgb s)) ∧
    exec .clear s = .next (clearLoop s) ∧
    (∀ a b, exec (.rainbow a b) s = .next (rainbowLoop a b s))

/-- R117, R118, R119: EASE, SHIFT and ROTATE, which the model stores in one operation (log entry 4), leave exactly the
state that their loops leave, one `MemRead` and `MemWrite` after another as the rules write them. -/
def Obligations.TransformsMatchTheirLoops : Prop :=
  ∀ s : State, s.Inv →
    exec .ease s = .next (easeLoop s) ∧
    (∀ n, exec (.shift n) s = .next (shiftLoop n s)) ∧
    (∀ n, exec (.rotate n) s = .next (rotateLoop n s))
end

