-- ==== Sys2Proof/Laws/Encoding.lean ====
section
/-!
SUPPORT. The fields of a made word, and that a 32-bit field carries every operand value.
-/

namespace Sys2Proof

section
variable (op : BitVec 8) (a b c d : Word)

/-- Bit `i` of a made word, field by field from the bottom. -/
theorem getLsbD_makeWord (i : Nat) :
    (makeWord op a b c d).getLsbD i =
      if i < 32 then d.getLsbD i
      else if i < 64 then c.getLsbD (i - 32)
      else if i < 96 then b.getLsbD (i - 64)
      else if i < 128 then a.getLsbD (i - 96)
      else if i < 152 then false
      else op.getLsbD (i - 152) := by
  show BitVec.getLsbD (w := 8 + 24 + 32 + 32 + 32 + 32) (op ++ 0#24 ++ a ++ b ++ c ++ d) i = _
  simp only [BitVec.getLsbD_append, BitVec.getLsbD_zero, Nat.sub_sub]
  split_ifs <;> first | (exfalso; omega) | rfl

@[simp] theorem opc_makeWord : opc (makeWord op a b c d) = op := by
  apply BitVec.eq_of_getLsbD_eq
  intro i hi
  rw [opc, BitVec.getLsbD_extractLsb', getLsbD_makeWord]
  split_ifs <;> first | (exfalso; omega) | simp [hi]

@[simp] theorem rsv_makeWord : rsv (makeWord op a b c d) = 0#24 := by
  apply BitVec.eq_of_getLsbD_eq
  intro i hi
  rw [rsv, BitVec.getLsbD_extractLsb', getLsbD_makeWord]
  split_ifs <;> first | (exfalso; omega) | simp [hi]

@[simp] theorem fieldA_makeWord : fieldA (makeWord op a b c d) = a := by
  apply BitVec.eq_of_getLsbD_eq
  intro i hi
  rw [fieldA, BitVec.getLsbD_extractLsb', getLsbD_makeWord]
  split_ifs <;> first | (exfalso; omega) | simp [hi]

@[simp] theorem fieldB_makeWord : fieldB (makeWord op a b c d) = b := by
  apply BitVec.eq_of_getLsbD_eq
  intro i hi
  rw [fieldB, BitVec.getLsbD_extractLsb', getLsbD_makeWord]
  split_ifs <;> first | (exfalso; omega) | simp [hi]

@[simp] theorem fieldC_makeWord : fieldC (makeWord op a b c d) = c := by
  apply BitVec.eq_of_getLsbD_eq
  intro i hi
  rw [fieldC, BitVec.getLsbD_extractLsb', getLsbD_makeWord]
  split_ifs <;> first | (exfalso; omega) | simp [hi]

@[simp] theorem fieldD_makeWord : fieldD (makeWord op a b c d) = d := by
  apply BitVec.eq_of_getLsbD_eq
  intro i hi
  rw [fieldD, BitVec.getLsbD_extractLsb', getLsbD_makeWord]
  split_ifs <;> first | (exfalso; omega) | simp [hi]

end

/-- Reading back the field of an operand in range gives the operand. -/
theorem sext32_ofInt {v : Int} (h : InOperandRange v) : sext32 (BitVec.ofInt 32 v) = v := by
  obtain ⟨h₁, h₂⟩ := h
  rw [sext32, BitVec.toInt_ofInt, Int.bmod_eq_of_le] <;> omega

/-- Every field is the value of an operand in range. -/
theorem sext32_range (f : Word) : InOperandRange (sext32 f) := by
  have h₁ := f.le_toInt; have h₂ := f.toInt_lt
  unfold sext32
  constructor <;> omega

end Sys2Proof
end

