-- ==== Sys2Proof/Laws/Memory.lean ====
section
/-!
SUPPORT. The laws of the frame buffer as data: what a read gives after a fill or a write, that both keep the
canonical form, and that canonical memories with equal reads are equal.
-/

namespace Sys2Proof.Machine.Memory

/-! ### Reads -/

@[simp] theorem read_nil (a : Nat) : read [] a = 0#8 := rfl

theorem read_cons (b : Nat) (v : Byte) (m : Memory) (a : Nat) :
    read ((b, v) :: m) a = if b = a then v else read m a := rfl

theorem read_eq_zero_of_unlisted {m : Memory} {a : Nat} (h : ∀ c ∈ m, c.1 ≠ a) : read m a = 0#8 := by
  induction m with
  | nil => rfl
  | cons c m ih =>
    obtain ⟨b, v⟩ := c
    rw [read_cons, if_neg (h (b, v) (by simp)), ih fun c hc => h c (by simp [hc])]

theorem read_append_of_unlisted {m₁ : Memory} (m₂ : Memory) {a : Nat} (h : ∀ c ∈ m₁, c.1 ≠ a) :
    read (m₁ ++ m₂) a = read m₂ a := by
  induction m₁ with
  | nil => rfl
  | cons c m ih =>
    obtain ⟨b, v⟩ := c
    rw [List.cons_append, read_cons, if_neg (h (b, v) (by simp)), ih fun c hc => h c (by simp [hc])]

theorem read_append_of_unlisted_right (m₁ : Memory) {m₂ : Memory} {a : Nat} (h : ∀ c ∈ m₂, c.1 ≠ a) :
    read (m₁ ++ m₂) a = read m₁ a := by
  induction m₁ with
  | nil => exact read_eq_zero_of_unlisted h
  | cons c m ih => obtain ⟨b, v⟩ := c; rw [List.cons_append, read_cons, read_cons, ih]

theorem read_filter {p : Nat → Bool} (m : Memory) {a : Nat} (h : p a = true) :
    read (m.filter fun c => p c.1) a = read m a := by
  induction m with
  | nil => rfl
  | cons c m ih =>
    obtain ⟨b, v⟩ := c
    by_cases hb : b = a
    · subst hb; simp [h, read_cons]
    · by_cases hp : p b = true
      · simp [hp, read_cons, hb, ih]
      · simp [hp, read_cons, hb, ih]

/-- A listed address of a canonical memory reads as its cell says. -/
theorem read_of_mem {m : Memory} (hm : m.wf) {c : Host.Cell} (hc : c ∈ m) : read m c.1 = c.2 := by
  obtain ⟨hs, -⟩ := hm
  induction m with
  | nil => simp at hc
  | cons d m ih =>
    obtain ⟨b, v⟩ := d
    rw [List.pairwise_cons] at hs
    rcases List.mem_cons.1 hc with rfl | hc
    · simp [read_cons]
    · rw [read_cons, if_neg (Nat.ne_of_lt (hs.1 c hc)), ih hc hs.2]

/-! ### `cells` -/

theorem mem_cells {lo n : Nat} {f : Nat → Byte} {c : Host.Cell} :
    c ∈ cells lo n f ↔ (lo ≤ c.1 ∧ c.1 < lo + n) ∧ f c.1 = c.2 ∧ c.2 ≠ 0#8 := by
  obtain ⟨b, v⟩ := c
  simp only [cells, unlisted, List.mem_filterMap, List.mem_range'_1]
  constructor
  · rintro ⟨a, ha, h⟩
    split at h
    · cases h
    · cases h; exact ⟨ha, rfl, ‹_›⟩
  · rintro ⟨ha, rfl, hv⟩
    exact ⟨b, ha, by rw [if_neg hv]⟩

theorem cells_succ (lo n : Nat) (f : Nat → Byte) :
    cells lo (n + 1) f = if f lo = 0#8 then cells (lo + 1) n f else (lo, f lo) :: cells (lo + 1) n f := by
  simp only [cells, unlisted, List.range'_succ, List.filterMap_cons]
  split <;> simp_all

theorem read_cells (lo n : Nat) (f : Nat → Byte) (a : Nat) :
    read (cells lo n f) a = if lo ≤ a ∧ a < lo + n then f a else 0#8 := by
  induction n generalizing lo with
  | zero => rw [if_neg (by omega)]; rfl
  | succ n ih =>
    rw [cells_succ]
    by_cases ha : lo = a
    · subst ha
      by_cases hf : f lo = 0#8
      · rw [if_pos hf, ih, if_neg (by omega), if_pos (by omega), hf]
      · rw [if_neg hf, read_cons, if_pos rfl, if_pos (by omega)]
    · have : (lo + 1 ≤ a ∧ a < lo + 1 + n) ↔ (lo ≤ a ∧ a < lo + (n + 1)) := by omega
      by_cases hf : f lo = 0#8
      · rw [if_pos hf, ih]; simp only [this]
      · rw [if_neg hf, read_cons, if_neg ha, ih]; simp only [this]

theorem cells_sorted (lo n : Nat) (f : Nat → Byte) : (cells lo n f).Pairwise fun x y => x.1 < y.1 := by
  induction n generalizing lo with
  | zero => simp [cells]
  | succ n ih =>
    rw [cells_succ]
    split
    · exact ih _
    · refine List.pairwise_cons.2 ⟨fun c hc => ?_, ih _⟩
      have := (mem_cells.1 hc).1.1
      simp only; omega

/-! ### `fill` and `write` -/

/-- A fill stores `f a` at each address of its range and leaves every other address alone. -/
@[simp] theorem read_fill (m : Memory) (lo n : Nat) (f : Nat → Byte) (a : Nat) :
    (m.fill lo n f).read a = if lo ≤ a ∧ a < lo + n then f a else m.read a := by
  unfold fill
  by_cases h₁ : a < lo
  · rw [if_neg (by omega), List.append_assoc, read_append_of_unlisted_right]
    · exact read_filter (p := fun b => decide (b < lo)) m (by simpa using h₁)
    · intro c hc
      rcases List.mem_append.1 hc with hc | hc
      · have := (mem_cells.1 hc).1.1; omega
      · have := (List.mem_filter.1 hc).2; simp at this; omega
  · have hlow : ∀ c ∈ m.filter (fun c => decide (c.1 < lo)), c.1 ≠ a := by
      intro c hc
      have := (List.mem_filter.1 hc).2; simp at this; omega
    rw [List.append_assoc, read_append_of_unlisted _ hlow]
    by_cases h₂ : a < lo + n
    · rw [if_pos (by omega), read_append_of_unlisted_right, read_cells, if_pos (by omega)]
      intro c hc
      have := (List.mem_filter.1 hc).2; simp at this; omega
    · rw [if_neg (by omega), read_append_of_unlisted]
      · exact read_filter (p := fun b => decide (lo + n ≤ b)) m (by simpa using h₂)
      · intro c hc
        have := (mem_cells.1 hc).1.2; omega

theorem mem_fill {m : Memory} {lo n : Nat} {f : Nat → Byte} {c : Host.Cell} (h : c ∈ m.fill lo n f) :
    c ∈ m ∨ (lo ≤ c.1 ∧ c.1 < lo + n ∧ c.2 ≠ 0#8) := by
  unfold fill at h
  rcases List.mem_append.1 h with h | h
  · rcases List.mem_append.1 h with h | h
    · exact .inl (List.mem_filter.1 h).1
    · have := mem_cells.1 h; exact .inr ⟨this.1.1, this.1.2, this.2.2⟩
  · exact .inl (List.mem_filter.1 h).1

/-- A fill keeps the canonical form. -/
theorem wf_fill {m : Memory} (hm : m.wf) (lo n : Nat) (f : Nat → Byte) : (m.fill lo n f).wf := by
  obtain ⟨hs, hz⟩ := hm
  refine ⟨?_, fun c hc => ?_⟩
  · unfold fill
    refine List.pairwise_append.2 ⟨List.pairwise_append.2 ⟨hs.filter _, cells_sorted _ _ _, ?_⟩, hs.filter _, ?_⟩
    · intro c hc d hd
      have h₁ := (List.mem_filter.1 hc).2
      have h₂ := (mem_cells.1 hd).1
      simp at h₁; omega
    · intro c hc d hd
      have h₂ := (List.mem_filter.1 hd).2
      simp at h₂
      rcases List.mem_append.1 hc with hc | hc
      · have h₁ := (List.mem_filter.1 hc).2
        simp at h₁; omega
      · have h₁ := (mem_cells.1 hc).1; omega
  · rcases mem_fill hc with h | h
    · exact hz c h
    · exact h.2.2

/-- A fill inside the first `size` bytes lists no cell beyond them. -/
theorem fill_inside {m : Memory} {size lo n : Nat} (hm : ∀ c ∈ m, c.1 < size) (hn : lo + n ≤ size)
    (f : Nat → Byte) : ∀ c ∈ m.fill lo n f, c.1 < size := fun c hc => by
  rcases mem_fill hc with h | h
  · exact hm c h
  · omega

/-- Read after write. -/
@[simp] theorem read_write (m : Memory) (a : Nat) (v : Byte) (b : Nat) :
    (m.write a v).read b = if b = a then v else m.read b := by
  rw [write, read_fill]
  by_cases h : b = a
  · rw [if_pos (by omega), if_pos h]
  · rw [if_neg (by omega), if_neg h]

theorem wf_write {m : Memory} (hm : m.wf) (a : Nat) (v : Byte) : (m.write a v).wf := wf_fill hm _ _ _

theorem write_inside {m : Memory} {size a : Nat} (hm : ∀ c ∈ m, c.1 < size) (ha : a < size) (v : Byte) :
    ∀ c ∈ m.write a v, c.1 < size := fill_inside hm (by omega) _

theorem wf_nil : wf [] := ⟨List.Pairwise.nil, by simp⟩

/-! ### Extensionality -/

theorem read_pos_iff {m : Memory} (hm : m.wf) (a : Nat) : m.read a ≠ 0#8 ↔ ∃ c ∈ m, c.1 = a := by
  constructor
  · intro h
    by_contra hc
    exact h (read_eq_zero_of_unlisted fun c hm e => hc ⟨c, hm, e⟩)
  · rintro ⟨c, hc, rfl⟩
    rw [read_of_mem hm hc]
    exact hm.2 c hc

/-- Canonical memories that read alike are the same list. -/
theorem ext_read {m₁ m₂ : Memory} (h₁ : m₁.wf) (h₂ : m₂.wf) (h : ∀ a, m₁.read a = m₂.read a) : m₁ = m₂ := by
  have hmem : ∀ {m m' : Memory}, m.wf → m'.wf → (∀ a, m.read a = m'.read a) → ∀ c ∈ m, c ∈ m' := by
    intro m m' hm hm' he c hc
    have hr := read_of_mem hm hc
    obtain ⟨d, hd, hdc⟩ := (read_pos_iff hm' c.1).1 (by rw [← he, hr]; exact hm.2 c hc)
    have hv : d.2 = c.2 := by rw [← read_of_mem hm' hd, hdc, ← he, hr]
    rwa [← Prod.ext hdc hv]
  have nodup : ∀ {m : Memory}, m.wf → m.Nodup := fun hm =>
    hm.1.imp fun {x y} hlt => by rintro rfl; exact Nat.lt_irrefl _ hlt
  exact ((List.perm_ext_iff_of_nodup (nodup h₁) (nodup h₂)).2 fun c =>
    ⟨hmem h₁ h₂ h c, hmem h₂ h₁ (fun a => (h a).symm) c⟩).eq_of_pairwise
      (fun a b _ _ h h' => absurd h (Nat.lt_asymm h')) h₁.1 h₂.1

end Sys2Proof.Machine.Memory
end

