-- ==== Sys2Proof/Laws/State.lean ====
section
/-!
SUPPORT. For each update of State, what each field holds after it.
-/

namespace Sys2Proof.Machine.State

/-! ### `setErr` -/

@[simp] theorem setErr_fb (s : State) : s.setErr.fb = s.fb := rfl
@[simp] theorem setErr_bright (s : State) : s.setErr.bright = s.bright := rfl
@[simp] theorem setErr_result (s : State) : s.setErr.result = s.result := rfl
@[simp] theorem setErr_err (s : State) : s.setErr.err = true := rfl
@[simp] theorem setErr_cfg (s : State) : s.setErr.cfg = s.cfg := rfl
@[simp] theorem setErr_txline (s : State) : s.setErr.txline = s.txline := rfl
@[simp] theorem setErr_txlog (s : State) : s.setErr.txlog = s.txlog := rfl
@[simp] theorem setErr_input (s : State) : s.setErr.input = s.input := rfl

/-! ### `raiseIllegalCommand` -/

@[simp] theorem raiseIllegalCommand_fb (s : State) : s.raiseIllegalCommand.fb = s.fb := rfl
@[simp] theorem raiseIllegalCommand_bright (s : State) : s.raiseIllegalCommand.bright = s.bright := rfl
@[simp] theorem raiseIllegalCommand_result (s : State) : s.raiseIllegalCommand.result = s.result := rfl
@[simp] theorem raiseIllegalCommand_err (s : State) : s.raiseIllegalCommand.err = true := rfl
@[simp] theorem raiseIllegalCommand_cfg (s : State) : s.raiseIllegalCommand.cfg = s.cfg := rfl
@[simp] theorem raiseIllegalCommand_txline (s : State) : s.raiseIllegalCommand.txline = s.txline := rfl
@[simp] theorem raiseIllegalCommand_txlog (s : State) : s.raiseIllegalCommand.txlog = s.txlog := rfl
@[simp] theorem raiseIllegalCommand_input (s : State) : s.raiseIllegalCommand.input = s.input := rfl

/-! ### `memWrite` -/

@[simp] theorem memWrite_fb (s : State) (a : Nat) (v : Byte) : (s.memWrite a v).fb = s.fb.write a v := rfl
@[simp] theorem memWrite_bright (s : State) (a : Nat) (v : Byte) : (s.memWrite a v).bright = s.bright := rfl
@[simp] theorem memWrite_result (s : State) (a : Nat) (v : Byte) : (s.memWrite a v).result = s.result := rfl
@[simp] theorem memWrite_err (s : State) (a : Nat) (v : Byte) : (s.memWrite a v).err = s.err := rfl
@[simp] theorem memWrite_cfg (s : State) (a : Nat) (v : Byte) : (s.memWrite a v).cfg = s.cfg := rfl
@[simp] theorem memWrite_txline (s : State) (a : Nat) (v : Byte) : (s.memWrite a v).txline = s.txline := rfl
@[simp] theorem memWrite_txlog (s : State) (a : Nat) (v : Byte) : (s.memWrite a v).txlog = s.txlog := rfl
@[simp] theorem memWrite_input (s : State) (a : Nat) (v : Byte) : (s.memWrite a v).input = s.input := rfl

/-! ### `setResult` -/

@[simp] theorem setResult_fb (s : State) (v : Int) : (s.setResult v).fb = s.fb := rfl
@[simp] theorem setResult_bright (s : State) (v : Int) : (s.setResult v).bright = s.bright := rfl
@[simp] theorem setResult_result (s : State) (v : Int) : (s.setResult v).result = u32 v := rfl
@[simp] theorem setResult_err (s : State) (v : Int) : (s.setResult v).err = s.err := rfl
@[simp] theorem setResult_cfg (s : State) (v : Int) : (s.setResult v).cfg = s.cfg := rfl
@[simp] theorem setResult_txline (s : State) (v : Int) : (s.setResult v).txline = s.txline := rfl
@[simp] theorem setResult_txlog (s : State) (v : Int) : (s.setResult v).txlog = s.txlog := rfl
@[simp] theorem setResult_input (s : State) (v : Int) : (s.setResult v).input = s.input := rfl

/-! ### `setBright` -/

@[simp] theorem setBright_fb (s : State) (v : Byte) : (s.setBright v).fb = s.fb := rfl
@[simp] theorem setBright_bright (s : State) (v : Byte) : (s.setBright v).bright = v := rfl
@[simp] theorem setBright_result (s : State) (v : Byte) : (s.setBright v).result = s.result := rfl
@[simp] theorem setBright_err (s : State) (v : Byte) : (s.setBright v).err = s.err := rfl
@[simp] theorem setBright_cfg (s : State) (v : Byte) : (s.setBright v).cfg = s.cfg := rfl
@[simp] theorem setBright_txline (s : State) (v : Byte) : (s.setBright v).txline = s.txline := rfl
@[simp] theorem setBright_txlog (s : State) (v : Byte) : (s.setBright v).txlog = s.txlog := rfl
@[simp] theorem setBright_input (s : State) (v : Byte) : (s.setBright v).input = s.input := rfl

/-! ### `emit` -/

@[simp] theorem emit_fb (s : State) (f : Frame) : (s.emit f).fb = s.fb := rfl
@[simp] theorem emit_bright (s : State) (f : Frame) : (s.emit f).bright = s.bright := rfl
@[simp] theorem emit_result (s : State) (f : Frame) : (s.emit f).result = s.result := rfl
@[simp] theorem emit_err (s : State) (f : Frame) : (s.emit f).err = s.err := rfl
@[simp] theorem emit_cfg (s : State) (f : Frame) : (s.emit f).cfg = s.cfg := rfl
@[simp] theorem emit_txline (s : State) (f : Frame) : (s.emit f).txline = s.txline := rfl
@[simp] theorem emit_txlog (s : State) (f : Frame) : (s.emit f).txlog = s.txlog ++ [f] := rfl
@[simp] theorem emit_input (s : State) (f : Frame) : (s.emit f).input = s.input := rfl

/-! ### `flushed` -/

@[simp] theorem flushed_fb (s : State) : s.flushed.fb = s.fb := rfl
@[simp] theorem flushed_bright (s : State) : s.flushed.bright = s.bright := rfl
@[simp] theorem flushed_result (s : State) : s.flushed.result = s.result := rfl
@[simp] theorem flushed_err (s : State) : s.flushed.err = s.err := rfl
@[simp] theorem flushed_cfg (s : State) : s.flushed.cfg = s.cfg := rfl
@[simp] theorem flushed_txline (s : State) : s.flushed.txline = s.txline := rfl
@[simp] theorem flushed_txlog (s : State) : s.flushed.txlog = s.txlog ++ [s.frame] := rfl
@[simp] theorem flushed_input (s : State) : s.flushed.input = s.input := rfl

/-! ### `mapWindow` -/

@[simp] theorem mapWindow_bright (s : State) (f : Nat → Nat → Byte) : (s.mapWindow f).bright = s.bright := rfl
@[simp] theorem mapWindow_result (s : State) (f : Nat → Nat → Byte) : (s.mapWindow f).result = s.result := rfl
@[simp] theorem mapWindow_err (s : State) (f : Nat → Nat → Byte) : (s.mapWindow f).err = s.err := rfl
@[simp] theorem mapWindow_cfg (s : State) (f : Nat → Nat → Byte) : (s.mapWindow f).cfg = s.cfg := rfl
@[simp] theorem mapWindow_txline (s : State) (f : Nat → Nat → Byte) : (s.mapWindow f).txline = s.txline := rfl
@[simp] theorem mapWindow_txlog (s : State) (f : Nat → Nat → Byte) : (s.mapWindow f).txlog = s.txlog := rfl
@[simp] theorem mapWindow_input (s : State) (f : Nat → Nat → Byte) : (s.mapWindow f).input = s.input := rfl

/-! ### `writePixel` -/

@[simp] theorem writePixel_bright (s : State) (o rgb : Int) : (s.writePixel o rgb).bright = s.bright := by
  unfold writePixel; split <;> rfl

@[simp] theorem writePixel_result (s : State) (o rgb : Int) : (s.writePixel o rgb).result = s.result := by
  unfold writePixel; split <;> rfl

@[simp] theorem writePixel_err (s : State) (o rgb : Int) : (s.writePixel o rgb).err = s.err := by
  unfold writePixel; split <;> rfl

@[simp] theorem writePixel_cfg (s : State) (o rgb : Int) : (s.writePixel o rgb).cfg = s.cfg := by
  unfold writePixel; split <;> rfl

@[simp] theorem writePixel_txline (s : State) (o rgb : Int) : (s.writePixel o rgb).txline = s.txline := by
  unfold writePixel; split <;> rfl

@[simp] theorem writePixel_txlog (s : State) (o rgb : Int) : (s.writePixel o rgb).txlog = s.txlog := by
  unfold writePixel; split <;> rfl

@[simp] theorem writePixel_input (s : State) (o rgb : Int) : (s.writePixel o rgb).input = s.input := by
  unfold writePixel; split <;> rfl

/-! ### `resetWith` and `reset` -/

@[simp] theorem resetWith_fb (c : Config) (ev : List HostEvent) : (resetWith c ev).fb = [] := rfl
@[simp] theorem resetWith_bright (c : Config) (ev : List HostEvent) : (resetWith c ev).bright = 255#8 := rfl
@[simp] theorem resetWith_result (c : Config) (ev : List HostEvent) : (resetWith c ev).result = 0#32 := rfl
@[simp] theorem resetWith_err (c : Config) (ev : List HostEvent) : (resetWith c ev).err = false := rfl
@[simp] theorem resetWith_cfg (c : Config) (ev : List HostEvent) : (resetWith c ev).cfg = c := rfl
@[simp] theorem resetWith_txline (c : Config) (ev : List HostEvent) : (resetWith c ev).txline = false := rfl
@[simp] theorem resetWith_txlog (c : Config) (ev : List HostEvent) : (resetWith c ev).txlog = [] := rfl
@[simp] theorem resetWith_input (c : Config) (ev : List HostEvent) : (resetWith c ev).input = ev := rfl

theorem reset_eq : reset = resetWith Config.default [] := rfl

end Sys2Proof.Machine.State
end

