-- ==== Sys2Proof/Laws/Ops.lean ====
section
/-!
SUPPORT. What the shared operations can do, said once: completing a step, storing the window, writing a pixel,
flushing.
-/

namespace Sys2Proof.Machine

/-! ### `finish` -/

theorem finish_of_legal {s : State} (h : s.cfg.Legal) (t : State) : s.finish t = .next t := if_pos h

theorem finish_of_not_legal {s : State} (h : ¬ s.cfg.Legal) (t : State) :
    s.finish t = .refused .illegalConfiguration := if_neg h

/-- A step that answers a next state had a legal configuration, and the state is the one it was given. -/
theorem finish_eq_next {s t u : State} : s.finish t = .next u ↔ s.cfg.Legal ∧ t = u := by
  unfold State.finish
  split <;> simp_all

/-! ### Addresses -/

theorem stride_pos (st : Stride) : 0 < st.bytes := by cases st <;> decide

theorem three_le_stride (st : Stride) : 3 ≤ st.bytes := by cases st <;> decide

theorem pixelAddr_eq (c : Config) (o : Nat) : pixelAddr c o = windowBase c + o * c.stride.bytes := by
  unfold pixelAddr windowBase; ring

/-- The window ends inside the backing buffer. -/
theorem window_le_size {c : Config} (h : c.Legal) : windowBase c + windowBytes c ≤ c.size := by
  unfold windowBase windowBytes Config.size
  rw [← Nat.add_mul]
  exact Nat.mul_le_mul_right _ h

/-- A byte of a window pixel lies in the window. -/
theorem pixelByte_lt {c : Config} {k j : Nat} (hk : k < c.length) (hj : j < c.stride.bytes) :
    pixelAddr c k + j < windowBase c + windowBytes c := by
  have : (k + 1) * c.stride.bytes ≤ c.length * c.stride.bytes := Nat.mul_le_mul_right _ hk
  rw [pixelAddr_eq, windowBytes]
  rw [Nat.add_mul] at this
  omega

theorem windowAddr_iff {c : Config} {a : Nat} :
    WindowAddr c a ↔ windowBase c ≤ a ∧ a < windowBase c + windowBytes c := by
  unfold WindowAddr windowBase windowBytes
  rw [Nat.add_mul]

/-- The pixel and the channel of a window byte. -/
theorem pixelAddr_div_mod {c : Config} {a : Nat} (h : windowBase c ≤ a) :
    pixelAddr c ((a - windowBase c) / c.stride.bytes) + (a - windowBase c) % c.stride.bytes = a := by
  rw [pixelAddr_eq]
  have := Nat.div_add_mod (a - windowBase c) c.stride.bytes
  rw [Nat.mul_comm] at this
  omega

theorem pixel_lt_length {c : Config} {a : Nat} (h₁ : windowBase c ≤ a) (h₂ : a < windowBase c + windowBytes c) :
    (a - windowBase c) / c.stride.bytes < c.length := by
  rw [Nat.div_lt_iff_lt_mul (stride_pos _)]
  unfold windowBytes at h₂
  omega

/-- Pixels start at multiples of the stride, so a byte's channel is its address modulo the stride. -/
theorem channel_eq_mod {c : Config} {a : Nat} (h : windowBase c ≤ a) :
    (a - windowBase c) % c.stride.bytes = a % c.stride.bytes := by
  unfold windowBase at *
  obtain ⟨d, rfl⟩ := Nat.exists_eq_add_of_le h
  rw [Nat.add_sub_cancel_left, Nat.add_comm, Nat.add_mul_mod_self_right]

/-- A window byte's pixel is its address divided by the stride, less `START`. -/
theorem pixel_eq_div {c : Config} {a : Nat} (h : windowBase c ≤ a) :
    (a - windowBase c) / c.stride.bytes = a / c.stride.bytes - c.start := by
  unfold windowBase at *
  obtain ⟨d, rfl⟩ := Nat.exists_eq_add_of_le h
  rw [Nat.add_sub_cancel_left, Nat.add_comm, Nat.add_mul_div_right _ _ (stride_pos _), Nat.add_sub_cancel]

theorem pixelAddr_mod (c : Config) (k : Nat) {j : Nat} (hj : j < c.stride.bytes) :
    (pixelAddr c k + j) % c.stride.bytes = j := by
  unfold pixelAddr
  rw [Nat.add_comm, Nat.add_mul_mod_self_right, Nat.mod_eq_of_lt hj]

/-! ### `mapWindow` -/

/-- Byte by byte, what storing the window leaves. -/
theorem read_mapWindow (s : State) (f : Nat → Nat → Byte) (a : Nat) :
    (s.mapWindow f).fb.read a =
      if windowBase s.cfg ≤ a ∧ a < windowBase s.cfg + windowBytes s.cfg then
        f ((a - windowBase s.cfg) / s.cfg.stride.bytes) ((a - windowBase s.cfg) % s.cfg.stride.bytes)
      else s.fb.read a := Memory.read_fill _ _ _ _ _

/-- Pixel by pixel, what storing the window leaves. -/
theorem windowByte_mapWindow (s : State) (f : Nat → Nat → Byte) {k j : Nat} (hk : k < s.cfg.length)
    (hj : j < s.cfg.stride.bytes) : (s.mapWindow f).windowByte k j = f k j := by
  have h := pixelByte_lt hk hj
  have hsub : pixelAddr s.cfg k + j - windowBase s.cfg = j + k * s.cfg.stride.bytes := by
    rw [pixelAddr_eq]; omega
  show (s.mapWindow f).fb.read (pixelAddr s.cfg k + j) = _
  rw [read_mapWindow, if_pos ⟨by rw [pixelAddr_eq]; omega, h⟩, hsub, Nat.add_mul_div_right _ _ (stride_pos _),
    Nat.add_mul_mod_self_right, Nat.mod_eq_of_lt hj, Nat.div_eq_of_lt hj, Nat.zero_add]

/-- Storing the window keeps a good state good. -/
theorem mapWindow_inv {s : State} (h : s.Inv) (f : Nat → Nat → Byte) : (s.mapWindow f).Inv :=
  ⟨h.legal, Memory.wf_fill h.canonical _ _ _, Memory.fill_inside h.inside (window_le_size h.legal) _, h.frames,
    h.lineLow⟩

theorem sameButFb_mapWindow (s : State) (f : Nat → Nat → Byte) : SameButFb s (s.mapWindow f) := rfl

/-! ### `memWrite` and `writePixel` -/

theorem memWrite_inv {s : State} (h : s.Inv) {a : Nat} (ha : a < s.cfg.size) (v : Byte) : (s.memWrite a v).Inv :=
  ⟨h.legal, Memory.wf_write h.canonical _ _, Memory.write_inside h.inside ha _, h.frames, h.lineLow⟩

theorem writePixel_of_not_inWindow {s : State} {o : Int} (h : ¬ InWindow s.cfg o) (rgb : Int) :
    s.writePixel o rgb = s := if_neg h

/-- Byte by byte, what an admitted pixel write leaves. -/
theorem read_writePixel {s : State} {o : Int} (h : InWindow s.cfg o) (rgb : Int) (a : Nat) :
    (s.writePixel o rgb).fb.read a =
      if pixelAddr s.cfg o.toNat ≤ a ∧ a ≤ pixelAddr s.cfg o.toNat + 2 then
        channelByte s.bright rgb (a - pixelAddr s.cfg o.toNat)
      else s.fb.read a := by
  rw [State.writePixel, if_pos h]
  simp only [State.memWrite_fb, Memory.read_write]
  by_cases h₂ : a = pixelAddr s.cfg o.toNat + 2
  · subst h₂; rw [if_pos rfl, if_pos (by omega), Nat.add_sub_cancel_left]
  by_cases h₁ : a = pixelAddr s.cfg o.toNat + 1
  · subst h₁; rw [if_neg (by omega), if_pos rfl, if_pos (by omega), Nat.add_sub_cancel_left]
  by_cases h₀ : a = pixelAddr s.cfg o.toNat
  · subst h₀; rw [if_neg (by omega), if_neg (by omega), if_pos rfl, if_pos (by omega), Nat.sub_self]
  · rw [if_neg h₂, if_neg h₁, if_neg h₀, if_neg (by omega)]

theorem sameButFb_writePixel (s : State) (o rgb : Int) : SameButFb s (s.writePixel o rgb) := by
  unfold State.writePixel; split <;> rfl

/-- A pixel write keeps a good state good. -/
theorem writePixel_inv {s : State} (h : s.Inv) (o rgb : Int) : (s.writePixel o rgb).Inv := by
  by_cases ho : InWindow s.cfg o
  · have hlt : ∀ j, j < 3 → pixelAddr s.cfg o.toNat + j < s.cfg.size := fun j hj =>
      (pixelByte_lt (by omega) (Nat.lt_of_lt_of_le hj (three_le_stride _))).trans_le (window_le_size h.legal)
    rw [State.writePixel, if_pos ho]
    exact memWrite_inv (memWrite_inv (memWrite_inv h (hlt 0 (by omega)) _) (hlt 1 (by omega)) _)
      (hlt 2 (by omega)) _
  · rwa [writePixel_of_not_inWindow ho]

/-! ### The flush -/

/-- The frame of a flush is the backing buffer. -/
theorem frame_isFrameOf (s : State) : IsFrameOf s.frame s := by
  refine ⟨by simp [State.frame], fun a ha => ?_⟩
  simp [State.frame, State.memRead, ha]

theorem flushed_inv {s : State} (h : s.Inv) : s.flushed.Inv := by
  refine ⟨h.legal, h.canonical, h.inside, fun f hf => ?_, h.lineLow⟩
  rcases List.mem_append.1 hf with hf | hf
  · exact h.frames f hf
  · rw [List.mem_singleton.1 hf]; exact (frame_isFrameOf s).1

/-! ### Bytes and colours -/

/-- `byteOf` takes the low eight bits. -/
theorem byteOf_eq (v : Int) : byteOf v = BitVec.ofInt 8 v := by
  apply BitVec.eq_of_toNat_eq
  simp [byteOf, u8]

theorem byteOf_natCast (b : Byte) : byteOf (b.toNat : Int) = b := by
  rw [byteOf_eq]; simp

theorem u8_range (v : Int) : 0 ≤ u8 v ∧ u8 v < 256 := by unfold u8; omega

theorem pack_range (r g b : Int) : 0 ≤ pack r g b ∧ pack r g b < 16777216 := by
  have := u8_range r; have := u8_range g; have := u8_range b
  unfold pack; omega

end Sys2Proof.Machine
end

