-- ==== Sys2Proof/Laws/Exec.lean ====
section
/-!
SUPPORT. What `exec` and `step` can do, said once: every command completes with one state, its effect, when the
configuration is legal, and a step is one of four events.
-/

namespace Sys2Proof.Machine

/-- The state a command completes with. -/
def effect : Instr → State → State
  | .pack r g b, s       => s.setResult (pack r g b)
  | .unpackR rgb, s      => s.setResult (unpackR rgb)
  | .unpackG rgb, s      => s.setResult (unpackG rgb)
  | .unpackB rgb, s      => s.setResult (unpackB rgb)
  | .hsl h sat l, s      => s.setResult (hsl h sat l)
  | .mapXyz x y z, s     => s.setResult (voxelOffset x y z)
  | .setPix o rgb, s     => s.writePixel o rgb
  | .setXyz x y z rgb, s => s.writePixel (voxelOffset x y z) rgb
  | .setAll rgb, s       => s.mapWindow (s.paintedByte rgb)
  | .clear, s            =>
      { s with fb := s.fb.fill (windowBase s.cfg) (windowBytes s.cfg - windowBase s.cfg) fun _ => 0#8 }
  | .setBright b, s      => s.setBright (byteOf b)
  | .ease, s             => s.mapWindow fun k j => easeByte (easeFactor s.cfg.length k) (s.windowByte k j)
  | .shift n, s          => s.mapWindow (s.shiftedByte n)
  | .rotate n, s         => s.mapWindow (s.rotatedByte n)
  | .length, s           => s.setResult s.cfg.length
  | .power, s            => s.setResult ((s.cfg.length / 2 + s.windowSum * 433 / 10000 : Nat) : Int)
  | .getPix o, s         => s.setResult (
      if InWindow s.cfg o then
        pack (s.windowByte o.toNat 0).toNat (s.windowByte o.toNat 1).toNat (s.windowByte o.toNat 2).toNat
      else 0)
  | .rainbow a b, s      =>
      if s.cfg.length = 0 then s
      else (s.mapWindow fun k j => s.paintedByte (rainbowColour a b s.cfg.length k) k j).flushed
  | .flush, s            => s.flushed

theorem exec_eq_finish (i : Instr) (s : State) : exec i s = s.finish (effect i s) := by
  cases i <;> rfl

/-- When a command answers a next state, and which. -/
theorem exec_eq_next {i : Instr} {s t : State} : exec i s = .next t ↔ s.cfg.Legal ∧ effect i s = t := by
  rw [exec_eq_finish, finish_eq_next]

theorem exec_of_legal {s : State} (h : s.cfg.Legal) (i : Instr) : exec i s = .next (effect i s) :=
  exec_eq_next.2 ⟨h, rfl⟩

/-- The four things a step can be: idle, a reset, a legal command, an illegal word. -/
theorem step_cases {s t : State} (h : step s = .next t) :
    s.cfg.Legal ∧
    ((s.input = [] ∧ t = s) ∨
     (∃ rest, s.input = .reset :: rest ∧ t = State.resetWith s.cfg rest) ∨
     (∃ w rest i, s.input = .command w :: rest ∧ decode w = some i ∧ t = effect i { s with input := rest }) ∨
     (∃ w rest, s.input = .command w :: rest ∧ decode w = none ∧ t = { s with input := rest, err := true })) := by
  unfold step at h
  split at h
  · rename_i hi
    obtain ⟨hl, rfl⟩ := finish_eq_next.1 h
    exact ⟨hl, .inl ⟨hi, rfl⟩⟩
  · rename_i rest hi
    obtain ⟨hl, rfl⟩ := finish_eq_next.1 h
    exact ⟨hl, .inr (.inl ⟨rest, hi, rfl⟩)⟩
  · rename_i w rest hi
    split at h
    · rename_i i hd
      obtain ⟨hl, rfl⟩ := exec_eq_next.1 h
      exact ⟨hl, .inr (.inr (.inl ⟨w, rest, i, hi, hd, rfl⟩))⟩
    · rename_i hd
      obtain ⟨hl, rfl⟩ := finish_eq_next.1 h
      exact ⟨hl, .inr (.inr (.inr ⟨w, rest, hi, hd, rfl⟩))⟩

end Sys2Proof.Machine
end

