-- ==== Sys2Proof/Laws/PerInstr.lean ====
section
/-!
SUPPORT. The per-instruction family `EncodeFields`: the word of a command carries its opcode, `RSV = 0` and its
operands in the fields A, B, C, D, in that order, 0 in the fields it does not use (30_encoding.md R60, R62, R66).
-/

namespace Sys2Proof.Laws.EncodeFields

def Statement (i : Instr) : Prop :=
  opc (encode i) = opcodeOf i ∧ rsv (encode i) = 0#24 ∧
    [fieldA (encode i), fieldB (encode i), fieldC (encode i), fieldD (encode i)] =
      (i.operands.map (BitVec.ofInt 32) ++ List.replicate (4 - i.operands.length) 0#32)

theorem pack (r g b : Int) : Statement (.pack r g b) := by
  simp [Statement, encode, operandField, Instr.operands]

theorem unpackR (rgb : Int) : Statement (.unpackR rgb) := by
  simp [Statement, encode, operandField, Instr.operands]

theorem unpackG (rgb : Int) : Statement (.unpackG rgb) := by
  simp [Statement, encode, operandField, Instr.operands]

theorem unpackB (rgb : Int) : Statement (.unpackB rgb) := by
  simp [Statement, encode, operandField, Instr.operands]

theorem hsl (h s l : Int) : Statement (.hsl h s l) := by
  simp [Statement, encode, operandField, Instr.operands]

theorem mapXyz (x y z : Int) : Statement (.mapXyz x y z) := by
  simp [Statement, encode, operandField, Instr.operands]

theorem setPix (offset rgb : Int) : Statement (.setPix offset rgb) := by
  simp [Statement, encode, operandField, Instr.operands]

theorem setXyz (x y z rgb : Int) : Statement (.setXyz x y z rgb) := by
  simp [Statement, encode, operandField, Instr.operands]

theorem setAll (rgb : Int) : Statement (.setAll rgb) := by
  simp [Statement, encode, operandField, Instr.operands]

theorem clear : Statement .clear := by
  simp [Statement, encode, operandField, Instr.operands]

theorem setBright (b : Int) : Statement (.setBright b) := by
  simp [Statement, encode, operandField, Instr.operands]

theorem ease : Statement .ease := by
  simp [Statement, encode, operandField, Instr.operands]

theorem shift (n : Int) : Statement (.shift n) := by
  simp [Statement, encode, operandField, Instr.operands]

theorem rotate (n : Int) : Statement (.rotate n) := by
  simp [Statement, encode, operandField, Instr.operands]

theorem length : Statement .length := by
  simp [Statement, encode, operandField, Instr.operands]

theorem power : Statement .power := by
  simp [Statement, encode, operandField, Instr.operands]

theorem getPix (offset : Int) : Statement (.getPix offset) := by
  simp [Statement, encode, operandField, Instr.operands]

theorem rainbow (startHue endHue : Int) : Statement (.rainbow startHue endHue) := by
  simp [Statement, encode, operandField, Instr.operands]

theorem flush : Statement .flush := by
  simp [Statement, encode, operandField, Instr.operands]

end Sys2Proof.Laws.EncodeFields
end

