-- ==== Sys2Proof/Tests/Slice0.lean ====
section
/-!
SUPPORT. Tests of the model on single steps, and a witness of the hypotheses of every statement. Expected values are
those of spec/95_test_vectors.md (V-numbers), of the rules' own examples, or worked by hand from the rules.
-/

namespace Sys2Proof.Tests

open Sys2Proof.Machine

/-! ### Helpers -/

/-- A block with window `start`, `length`, whose window pixels hold the bytes of `px` from the first on, brightness
255. -/
def block (start length : Nat) (px : List Nat) (stride : Stride := .rgb) : State :=
  { State.resetWith ⟨start, length, stride⟩ [] with
    fb := Memory.fill [] (start * stride.bytes) px.length fun a => BitVec.ofNat 8 (px.getD (a - start * stride.bytes) 0) }

/-- `RESULT` after a command, if it completes. -/
def resultOf : Outcome → Option Nat
  | .next t => some t.result.toNat
  | _       => none

/-- The `n` bytes of `FB` from address `lo` up, after a command that completes. -/
def bytesOf (lo n : Nat) : Outcome → Option (List Nat)
  | .next t => some ((List.range' lo n).map fun a => (t.fb.read a).toNat)
  | _       => none

/-- Whether a step completes with exactly this state. -/
def isNext (t : State) : Outcome → Bool
  | .next u => decide (u = t)
  | _       => false

/-! ### WellFormed: each check refuses an ill-formed command, and admits the bound -/

theorem test_wellFormed_refuses_above : ¬ (Instr.setAll 2147483648).WellFormed := by decide
theorem test_wellFormed_refuses_below : ¬ (Instr.setXyz 0 0 (-2147483649) 0).WellFormed := by decide
theorem test_wellFormed_admits_bounds : (Instr.rainbow (-2147483648) 2147483647).WellFormed := by decide
theorem test_legal_refuses_past_capacity : ¬ (⟨500, 13, .rgb⟩ : Config).Legal := by decide
theorem test_legal_admits_full_window : (⟨500, 12, .rgbw⟩ : Config).Legal := by decide

/-! ### Decoding: a word of every row of the opcode table, written out from R60 and R62 -/

theorem test_decode_pack : decode 0x10000000000000FF000000800000000100000000#160 = some (.pack 255 128 1) := by decide
theorem test_decode_unpackR : decode 0x11000000FFFFFFFF000000000000000000000000#160 = some (.unpackR (-1)) := by decide
theorem test_decode_unpackG : decode 0x1200000000FF8001000000000000000000000000#160 = some (.unpackG 0xFF8001) := by
  decide
theorem test_decode_unpackB : decode 0x1300000012345678000000000000000000000000#160 = some (.unpackB 0x12345678) := by
  decide
theorem test_decode_hsl : decode 0x140000000000007BFFFFFFFB000000C800000000#160 = some (.hsl 123 (-5) 200) := by decide
theorem test_decode_mapXyz : decode 0x2000000000000003FFFFFFFE0000000500000000#160 = some (.mapXyz 3 (-2) 5) := by decide
theorem test_decode_setPix : decode 0x30000000000001FF000102030000000000000000#160 = some (.setPix 511 0x010203) := by
  decide
theorem test_decode_setXyz : decode 0x310000000000000100000005000000000000FF00#160 = some (.setXyz 1 5 0 0xFF00) := by
  decide
theorem test_decode_setAll : decode 0x3200000000FF00FF000000000000000000000000#160 = some (.setAll 0xFF00FF) := by decide
theorem test_decode_clear : decode 0x3300000000000000000000000000000000000000#160 = some .clear := by decide
theorem test_decode_setBright : decode 0x3400000000000110000000000000000000000000#160 = some (.setBright 272) := by decide
theorem test_decode_ease : decode 0x3500000000000000000000000000000000000000#160 = some .ease := by decide
theorem test_decode_shift : decode 0x36000000FFFFFFFE000000000000000000000000#160 = some (.shift (-2)) := by decide
theorem test_decode_rotate : decode 0x3700000080000000000000000000000000000000#160 = some (.rotate (-2147483648)) := by
  decide
theorem test_decode_length : decode 0x38000000DEADBEEF12345678FFFFFFFF00000001#160 = some .length := by decide
theorem test_decode_power : decode 0x3900000000000000000000000000000000000000#160 = some .power := by decide
theorem test_decode_getPix : decode 0x3A00000000000001000000000000000000000000#160 = some (.getPix 1) := by decide
theorem test_decode_rainbow : decode 0x40000000FFFFFFE2000002EE0000000000000000#160 = some (.rainbow (-30) 750) := by
  decide
theorem test_decode_flush : decode 0x5000000000000000000000000000000000000000#160 = some .flush := by decide

/-- V5.3, V5.4: reserved field not 0; opcodes on both sides of the assigned ones. -/
theorem test_decode_illegal :
    decode 0x3800000100000000000000000000000000000000#160 = none ∧
    decode 0x308000000000000000FFFFFF0000000000000000#160 = none ∧
    [0x00#8, 0x0F#8, 0x15#8, 0x1F#8, 0x21#8, 0x2F#8, 0x3B#8, 0x3F#8, 0x41#8, 0x4F#8, 0x51#8, 0xFF#8].all (fun op =>
      decode (makeWord op 0 0 0 0) == none) = true := by decide

/-- The table's numbering: bit 0 of the one 160-bit word is bit 0 of `D`. -/
theorem test_decodeTableWord :
    decodeTableWord 160 0x3100000000000001000000050000000000FF8001 = some (.setXyz 1 5 0 0xFF8001) := by decide

theorem test_encode_setXyz : encode (.setXyz 1 5 0 0xFF00) = 0x310000000000000100000005000000000000FF00#160 := by
  decide

/-! ### The assembler (R66 to R68) -/

theorem test_assemble_shift : assembleLine "SHIFT -2".toList =
    some [0x36000000FFFFFFFE000000000000000000000000#160] := by decide +kernel
theorem test_assemble_refuses_missing_operand : assembleLine "PACK 1, 2".toList = none := by decide +kernel
theorem test_assemble_refuses_value_too_large : assembleLine "SHIFT 4294967296".toList = none := by decide +kernel
theorem test_assemble_black : assembleLine "  SETPIX 3 , BLACK ; off".toList =
    some [0x3000000000000003000000000000000000000000#160] := by decide +kernel

/-! ### color_model -/

/-- V1.1. -/
theorem test_pack_truncates : resultOf (exec (.pack 256 (-1) 511) State.reset) = some 0x00FFFF := by decide
theorem test_pack_order : resultOf (exec (.pack 255 128 1) State.reset) = some 0xFF8001 := by decide
theorem test_unpackR_ignores_top : resultOf (exec (.unpackR 0x12345678) State.reset) = some 0x34 := by decide
theorem test_unpackG_negative : resultOf (exec (.unpackG (-1)) State.reset) = some 0xFF := by decide
theorem test_unpackB : resultOf (exec (.unpackB 0xFF8001) State.reset) = some 0x01 := by decide
/-- V1.5 (sector 3) and V1.4 (hue below 0, saturation clamped). -/
theorem test_hsl_sector3 : resultOf (exec (.hsl 200 30 70) State.reset) = some 0x9CBACA := by decide +kernel
theorem test_hsl_negative_hue : resultOf (exec (.hsl (-1) 100 50) State.reset) = some 0xFE0105 := by decide +kernel

/-! ### coordinate_mapper -/

/-- V2.4 and V2.11. -/
theorem test_mapXyz_odd_layer : resultOf (exec (.mapXyz 6 2 1) State.reset) = some 78 := by decide
theorem test_mapXyz_high_bits_lost : resultOf (exec (.mapXyz 0 0 0x7FFFFFFF) State.reset) = some 0xFFFFFFF8 := by
  decide

/-! ### framebuffer_engine -/

/-- V3.2: the last pixel of the window, and the offsets on both sides of it. -/
theorem test_setPix_last : bytesOf 1530 6 (exec (.setPix 511 0x010203) State.reset) = some [0, 0, 0, 1, 2, 3] := by
  decide
theorem test_setPix_outside : isNext State.reset (exec (.setPix 512 0xFFFFFF) State.reset) = true ∧
    isNext State.reset (exec (.setPix (-1) 0xFFFFFF) State.reset) = true := by decide
/-- V3.1: brightness 254, and V3.13: a mapped offset from coordinates outside the cube. -/
theorem test_setPix_dimmed :
    bytesOf 3 3 (exec (.setPix 1 0xFF8001) { State.reset with bright := 254#8 }) = some [0xFD, 0x7F, 0] := by decide
theorem test_setXyz_below_zero :
    bytesOf 0 3 (exec (.setXyz (-1) 0 0 0x0A0B0C) State.reset) = some [0x0A, 0x0B, 0x0C] := by decide
theorem test_setXyz_dropped : isNext State.reset (exec (.setXyz 0 0 8 0xFFFFFF) State.reset) = true := by decide
/-- V3.14: the W bytes are left alone (R123); R114, worked by hand: only the window is painted. -/
theorem test_setAll_leaves_white : bytesOf 0 12 (exec (.setAll 0x102030) (block 0 3 [0, 0, 0, 9] .rgbw)) =
    some [0x10, 0x20, 0x30, 9, 0x10, 0x20, 0x30, 0, 0x10, 0x20, 0x30, 0] := by decide +kernel
theorem test_setAll_window : bytesOf 2 11 (exec (.setAll 0xEEEEEE) (block 1 3 [])) =
    some [0, 0xEE, 0xEE, 0xEE, 0xEE, 0xEE, 0xEE, 0xEE, 0xEE, 0xEE, 0] := by decide +kernel
/-- R115, worked by hand as in V3.9, on windows (1, 2) and (2, 2). -/
theorem test_clear_literal_range : bytesOf 3 6 (exec .clear (block 1 2 [9, 9, 9, 8, 8, 8])) = some [0, 0, 0, 8, 8, 8] := by
  decide +kernel
theorem test_clear_empty_range : bytesOf 6 6 (exec .clear (block 2 2 [9, 9, 9, 8, 8, 8])) = some [9, 9, 9, 8, 8, 8] := by
  decide +kernel
/-- R116: 272 stores 16, -1 stores 255. -/
theorem test_setBright_masks : isNext { State.reset with bright := 16#8 } (exec (.setBright 272) State.reset) = true ∧
    isNext State.reset (exec (.setBright (-1)) State.reset) = true := by decide
/-- V3.7: LENGTH 4 (below, at and above `mid`), and LENGTH 1 (`mid = 0`). -/
theorem test_ease_four : bytesOf 0 12 (exec .ease (block 0 4 (List.replicate 12 255))) =
    some [0, 0, 0, 0x3E, 0x3E, 0x3E, 0xFE, 0xFE, 0xFE, 0, 0, 0] := by decide +kernel
theorem test_ease_one : bytesOf 0 4 (exec .ease (block 0 1 [255, 255, 255, 7])) = some [0, 0, 0, 7] := by decide +kernel
/-- R118: by 1 upward; by the whole window. -/
theorem test_shift_up : bytesOf 0 12 (exec (.shift 1) (block 0 3 [1, 2, 3, 4, 5, 6, 7, 8, 9, 10])) =
    some [0, 0, 0, 1, 2, 3, 4, 5, 6, 10, 0, 0] := by decide +kernel
theorem test_shift_all_out : bytesOf 0 6 (exec (.shift (-2147483648)) (block 0 2 [1, 2, 3, 4, 5, 6])) =
    some [0, 0, 0, 0, 0, 0] := by decide +kernel
/-- R119: by -1, and by a large multiple of LENGTH. -/
theorem test_rotate_down : bytesOf 0 12 (exec (.rotate (-1)) (block 0 3 [1, 2, 3, 4, 5, 6, 7, 8, 9, 10])) =
    some [4, 5, 6, 7, 8, 9, 1, 2, 3, 10, 0, 0] := by decide +kernel
theorem test_rotate_multiple : isNext (block 0 2 [1, 2, 3, 4, 5, 6])
    (exec (.rotate (-2147483648)) (block 0 2 [1, 2, 3, 4, 5, 6])) = true := by decide +kernel
theorem test_length : resultOf (exec .length State.reset) = some 512 := by decide
/-- V3.8: LENGTH 7, every pixel 01 02 03; the default window all dark. -/
theorem test_power_seven :
    resultOf (exec .power (block 0 7 (List.flatten (List.replicate 7 [1, 2, 3])))) = some 4 := by decide +kernel
theorem test_power_dark : resultOf (exec .power State.reset) = some 256 := by decide +kernel
/-- V3.11. -/
theorem test_getPix : resultOf (exec (.getPix 1) (block 0 2 [0, 0, 0, 0x7F, 0x40, 0])) = some 0x7F4000 := by
  decide +kernel
theorem test_getPix_outside : resultOf (exec (.getPix 2) (block 0 2 [1, 1, 1, 1, 1, 1, 1, 1, 1])) = some 0 := by
  decide +kernel

/-! ### rainbow_fill_unit and flush -/

/-- V4.1 and V4.6a. -/
theorem test_rainbow_four : bytesOf 0 12 (exec (.rainbow 1 360) (block 0 4 [])) =
    some [0xFE, 0x04, 0x01, 0x7F, 0xFE, 0x01, 0x01, 0xFE, 0xFE, 0xFE, 0x01, 0x01] := by decide +kernel
theorem test_rainbow_one : bytesOf 0 3 (exec (.rainbow 1 360) (block 0 1 [])) = some [0x58, 0x01, 0xFE] := by
  decide +kernel
/-- V4.7: nothing written, nothing sent. -/
theorem test_rainbow_empty_window : isNext (block 5 0 []) (exec (.rainbow 1 360) (block 5 0 [])) = true := by decide
/-- R140: 1536 bytes, the first three those of pixel 0. -/
theorem test_flush : (match exec .flush (block 0 1 [0x11, 0x22, 0x33]) with
    | .next t => t.txlog.map fun f => (f.length, f.take 4)
    | _       => []) = [(1536, [0x11#8, 0x22#8, 0x33#8, 0#8])] := by decide +kernel

/-! ### Steps -/

/-- V5.4, V5.5: the all-zero word sets `ERR` and is used up. -/
theorem test_step_illegal : isNext { State.reset with err := true }
    (step { State.reset with input := [.command 0#160] }) = true := by decide
/-- V5.9. -/
theorem test_step_reset : isNext { State.reset with input := [.command 7#160] }
    (step { State.reset with
      err := true, bright := 3#8, fb := [(5, 1#8)], txlog := [[1#8]], input := [.reset, .command 7#160] }) = true := by
  decide
theorem test_step_fetch_word :
    resultOf (step (State.reset.withFetchWord 160 0x3800000000000000000000000000000000000000)) = some 512 := by decide

/-! ### Witnesses: a state and operands that meet each statement's hypotheses -/

/-- `ROTATE 0`. -/
def rotateWord : Command := 0x3700000000000000000000000000000000000000#160

/-- A block whose host presents a legal word, then an illegal one, then resets. -/
def busy : State :=
  { block 1 2 [1, 2, 3, 4, 5, 6] .rgbw with
    fb := [(4, 1#8), (5, 2#8)], bright := 7#8, input := [.command rotateWord, .command 0#160, .reset] }

theorem witness_legal : State.reset.cfg.Legal ∧ busy.cfg.Legal := by decide
theorem witness_legal_start_zero : State.reset.cfg.Legal ∧ State.reset.cfg.start = 0 := by decide
theorem witness_illegal_configuration : ¬ ({ State.reset with cfg := ⟨1, 512, .rgb⟩ } : State).cfg.Legal := by decide
theorem witness_ResetEventRestoresTheResetState :
    busy.cfg.Legal ∧ ({ busy with input := [.reset] } : State).input = .reset :: [] := by decide
theorem witness_ResetStateMeetsTheInvariants : (⟨500, 12, .rgbw⟩ : Config).Legal := by decide
theorem busy_inv : busy.Inv := ⟨by decide, by decide, by decide, by decide, rfl⟩
theorem reset_inv : State.reset.Inv := ⟨by decide, by decide, by decide, by decide, rfl⟩
theorem busy_dark_outside : busy.DarkOutsideWindow := fun a ha => by
  refine Memory.read_eq_zero_of_unlisted fun c hc e => ha ?_
  subst e
  revert c
  decide
theorem busy_dark_white : busy.DarkWhite := fun _ a ha => by
  refine Memory.read_eq_zero_of_unlisted fun c hc e => ?_
  subst e
  revert c
  decide
theorem busy_steps : ∃ t, step busy = .next t := by
  have hd : decode rotateWord = some (.rotate 0) := by decide
  have hi : busy.input = .command rotateWord :: [.command 0#160, .reset] := rfl
  refine ⟨effect (.rotate 0) { busy with input := [.command 0#160, .reset] }, ?_⟩
  simp only [step, hi, hd]
  exact exec_of_legal (s := { busy with input := [.command 0#160, .reset] }) (by decide) _
/-- EveryStepKeepsTheInvariant, …OutsideDark, …WhiteChannelDark, ErrIsStickyUntilReset,
ResultAndErrNeverReachTheOutput. -/
theorem witness_good_step :
    busy.Inv ∧ busy.DarkOutsideWindow ∧ busy.DarkWhite ∧ busy.cfg.stride = .rgbw ∧ ∃ t, step busy = .next t :=
  ⟨busy_inv, busy_dark_outside, busy_dark_white, rfl, busy_steps⟩
theorem witness_StepExecutesTheDecodedCommand :
    busy.input = .command rotateWord :: [.command 0#160, .reset] ∧
    decode rotateWord = some (.rotate 0) ∧
    decodeTableWord 160 0x3700000000000000000000000000000000000000 = some (.rotate 0) := by decide
theorem witness_IllegalWordOnlySetsErr :
    ({ busy with input := [.command 0x3800000100000000000000000000000000000000#160], err := true } : State).cfg.Legal ∧
    rsv 0x3800000100000000000000000000000000000000#160 ≠ 0#24 ∧
    opc 0x3B00000000000000000000000000000000000000#160 ∉ assignedOpcodes := by decide
theorem witness_IdleBlockHoldsItsState : State.reset.cfg.Legal ∧ State.reset.input = [] := by decide
/-- The frame statements, each with a command of the kind it speaks of and the one it leaves out. -/
theorem witness_frames :
    (∃ t, exec (.rotate 1) busy = .next t) ∧ (∀ b, Instr.rotate 1 ≠ .setBright b) ∧
    writesResult (.rotate 1) = false ∧ ¬ WriteRange busy.cfg 12 (.rotate 1) ∧ WriteRange busy.cfg 11 (.rotate 1) :=
  ⟨⟨_, exec_of_legal (by decide) _⟩, by simp, rfl, by show ¬ WindowAddr busy.cfg 12; decide,
    by show WindowAddr busy.cfg 11; decide⟩
theorem witness_LegalWordsAreExactlyTheTable :
    busy.cfg.Legal ∧ ¬ (rsv 0#160 = 0#24 ∧ opc 0#160 ∈ assignedOpcodes) := by decide
/-- OpcodesSelectTheirCommands and every statement that repeats its row: a word of each opcode with `RSV = 0`. -/
theorem witness_selects :
    assignedOpcodes.all (fun op => decide (opc (makeWord op 1 2 3 4) = op ∧ rsv (makeWord op 1 2 3 4) = 0#24)) =
      true := by decide +kernel
theorem witness_DecodeOfEncodeIsIdentity : (Instr.setXyz (-2147483648) 2147483647 0 (-1)).WellFormed := by decide
theorem witness_DecodedCommandsAreWellFormed : decode rotateWord = some (.rotate 0) := by decide
theorem witness_HslWrapsHueAndClampsTheRest : (-1 : Int) ≤ 0 ∧ (99 : Int) ≤ 99 := by decide
theorem witness_MapperStaysInTheCube :
    State.reset.cfg.Legal ∧ 7 < Config.grid ∧ 0 < Config.grid ∧ (7 - 0) % 2 = 1 := by decide
theorem witness_pixel_in_and_out :
    (0 ≤ (511 : Int) ∧ (511 : Int) < State.reset.cfg.length) ∧ ¬ (512 : Int) < State.reset.cfg.length := by decide
/-- Window bytes: the first, the last, and the one past it, of a window of two four-byte pixels from pixel 1. -/
theorem witness_window_bytes :
    WindowAddr busy.cfg 4 ∧ WindowAddr busy.cfg 11 ∧ ¬ WindowAddr busy.cfg 12 ∧ ¬ WindowAddr busy.cfg 3 := by decide
/-- ShiftMovesWholePixels, RotateMovesWholePixels: the last byte of the last pixel, with a source inside and outside. -/
theorem witness_pixel_bytes :
    1 < busy.cfg.length ∧ 3 < busy.cfg.stride.bytes ∧ (0 ≤ (1 : Int) - 1 ∧ (1 : Int) - 1 < busy.cfg.length) ∧
    ¬ 0 ≤ (0 : Int) - 1 := by decide
theorem witness_GetpixAfterSetpixAtFullBrightness :
    State.reset.cfg.Legal ∧ State.reset.bright = 255#8 ∧ 0 ≤ (511 : Int) ∧ (511 : Int) < State.reset.cfg.length := by
  decide
/-- RainbowPaintsTheGradientAndFlushes: windows of no, one and two pixels. -/
theorem witness_rainbow_windows :
    ((block 5 0 []).cfg.Legal ∧ (block 5 0 []).cfg.length = 0) ∧
    ((block 0 1 []).cfg.Legal ∧ 0 < (block 0 1 []).cfg.length ∧ (block 0 1 []).cfg.length = 1) ∧
    ((block 0 2 []).cfg.Legal ∧ 0 < (block 0 2 []).cfg.length ∧ 0 + 1 ≠ (block 0 2 []).cfg.length) := by decide
/-- RainbowHuesNeverDecrease: an inner pair and the last pair. -/
theorem witness_RainbowHuesNeverDecrease : 2 ≤ 4 ∧ 1 + 2 ≤ 4 ∧ 1 + 2 ≠ 4 ∧ 2 + 2 = 4 := by decide
theorem witness_ShowcolorPaintsAndSendsOneFrame :
    busy.cfg.Legal ∧ InOperandRange 0xFF00FF ∧
    ({ busy with input := deviceEvents (.showColor 0xFF00FF) ++ [.reset] } : State).input =
      deviceEvents (.showColor 0xFF00FF) ++ [.reset] := ⟨by decide, by decide, rfl⟩
/-- FillsMatchTheirLoops, TransformsMatchTheirLoops, RotateBackIsTheIdentity. -/
theorem witness_loops : busy.Inv ∧ 0 < busy.cfg.length ∧ 0 < busy.cfg.start := ⟨busy_inv, by decide, by decide⟩

end Sys2Proof.Tests
end

/-!
PROOFS. The scope of the model (00_scope.md R4): every step keeps a good state good, and a configuration that is not of
this hardware is refused.
-/

namespace Sys2Proof.Machine

/-! ### What keeps a state good -/

/-- `BRIGHT`, `RESULT`, `ERR` and the host's later events play no part in the invariant. -/
theorem registers_inv {s : State} (h : s.Inv) (bright : Byte) (result : Word) (err : Bool) (input : List HostEvent) :
    State.Inv { s with bright := bright, result := result, err := err, input := input } :=
  ⟨h.legal, h.canonical, h.inside, h.frames, h.lineLow⟩

theorem setResult_inv {s : State} (h : s.Inv) (v : Int) : (s.setResult v).Inv := registers_inv h _ _ _ _

theorem setBright_inv {s : State} (h : s.Inv) (v : Byte) : (s.setBright v).Inv := registers_inv h _ _ _ _

theorem resetWith_inv {c : Config} (h : c.Legal) (events : List HostEvent) : (State.resetWith c events).Inv :=
  ⟨h, Memory.wf_nil, by simp, by simp, rfl⟩

theorem fill_inv {s : State} (h : s.Inv) {lo n : Nat} (hn : lo + n ≤ s.cfg.size) (f : Nat → Byte) :
    State.Inv { s with fb := s.fb.fill lo n f } :=
  ⟨h.legal, Memory.wf_fill h.canonical _ _ _, Memory.fill_inside h.inside hn _, h.frames, h.lineLow⟩

/-- The literal range of CLEAR, which is not the window, ends inside the backing buffer too (R115). -/
theorem clearRange_le_size {c : Config} (h : c.Legal) :
    windowBase c + (windowBytes c - windowBase c) ≤ c.size := by
  have := window_le_size h
  omega

/-- Every command keeps a good state good. -/
theorem effect_inv {s : State} (h : s.Inv) (i : Instr) : (effect i s).Inv := by
  cases i with
  | pack | unpackR | unpackG | unpackB | hsl | mapXyz | length | power | getPix => exact setResult_inv h _
  | setBright => exact setBright_inv h _
  | setPix | setXyz => exact writePixel_inv h _ _
  | setAll | ease | shift | rotate => simp only [effect]; exact mapWindow_inv h _
  | clear => exact fill_inv h (clearRange_le_size h.legal) _
  | flush => exact flushed_inv h
  | rainbow =>
    simp only [effect]
    split
    · exact h
    · exact flushed_inv (mapWindow_inv h _)

/-- Settles O4, event by event: a command's effect, a reset, an idle step and an illegal word each keep a good state
good. -/
theorem everyStepKeepsTheInvariant : Obligations.EveryStepKeepsTheInvariant := by
  intro s t h hstep
  obtain ⟨hlegal, ⟨-, rfl⟩ | ⟨rest, -, rfl⟩ | ⟨w, rest, i, -, -, rfl⟩ | ⟨w, rest, -, -, rfl⟩⟩ := step_cases hstep
  · exact h
  · exact resetWith_inv hlegal rest
  · exact effect_inv (registers_inv h _ _ _ rest) i
  · exact registers_inv h _ _ _ rest

/-! ### A configuration that is not of this hardware -/

theorem exec_of_not_legal {s : State} (h : ¬ s.cfg.Legal) (i : Instr) :
    exec i s = .refused .illegalConfiguration := by
  rw [exec_eq_finish, finish_of_not_legal h]

/-- Whatever the next event is, the step is refused: taking the event off the list leaves the configuration alone. -/
theorem step_of_not_legal {s : State} (h : ¬ s.cfg.Legal) : step s = .refused .illegalConfiguration := by
  unfold step
  split
  · exact finish_of_not_legal h _
  · exact finish_of_not_legal h _
  next w rest _ =>
    split
    · exact exec_of_not_legal (s := { s with input := rest }) h _
    · exact finish_of_not_legal (s := { s with input := rest }) h _

/-- Settles O12: every command and every kind of step completes through `finish`, which refuses. -/
theorem illegalConfigurationIsRefused : Obligations.IllegalConfigurationIsRefused :=
  fun _ h => ⟨exec_of_not_legal h, step_of_not_legal h⟩

end Sys2Proof.Machine

/-!
PROOFS. The state (10_state.md): its reset values, which event and which command changes which piece of it, and that
`RESULT`, `ERR` and `TXLINE` reach no output.
-/

namespace Sys2Proof

/-! ### Legal words -/

/-- A word decodes exactly when `RSV = 0` and its `OPC` is assigned (30_encoding.md R64). -/
theorem decode_isSome_iff (w : Command) :
    (decode w).isSome = true ↔ rsv w = 0#24 ∧ opc w ∈ Machine.assignedOpcodes := by
  unfold decode
  by_cases hrsv : rsv w = 0#24
  · simp only [hrsv, if_true, true_and, Machine.assignedOpcodes]
    split
    case h_20 => simp_all -- no row's opcode
    all_goals rename_i hopc; simp [hopc]
  · simp [hrsv]

theorem legal_of_decode_eq_some {w : Command} {i : Instr} (h : decode w = some i) :
    rsv w = 0#24 ∧ opc w ∈ Machine.assignedOpcodes := (decode_isSome_iff w).1 (by rw [h]; rfl)

theorem not_legal_of_decode_eq_none {w : Command} (h : decode w = none) :
    ¬ (rsv w = 0#24 ∧ opc w ∈ Machine.assignedOpcodes) := fun hw => by
  simpa [h] using (decode_isSome_iff w).2 hw

end Sys2Proof

namespace Sys2Proof.Machine

/-! ### What a step answers, by the host's next event -/

theorem step_of_idle {s : State} (hi : s.input = []) : step s = s.finish s := by
  simp only [step, hi]

theorem step_of_reset {s : State} {rest : List HostEvent} (hi : s.input = .reset :: rest) :
    step s = s.finish (State.resetWith s.cfg rest) := by
  simp only [step, hi]

theorem step_of_command {s : State} {w : Command} {rest : List HostEvent} {i : Instr}
    (hi : s.input = .command w :: rest) (hd : decode w = some i) : step s = exec i { s with input := rest } := by
  simp only [step, hi, hd]

theorem step_of_illegal {s : State} {w : Command} {rest : List HostEvent}
    (hi : s.input = .command w :: rest) (hd : decode w = none) :
    step s = State.finish { s with input := rest } { s with input := rest, err := true } := by
  simp only [step, hi, hd]; rfl

/-! ### What a command can change -/

/-- The ways a command can change the state: `RESULT`, `BRIGHT`, or the frame buffer alone, or the frame buffer with a
flush after it. -/
inductive Changes (s : State) (i : Instr) : State → Prop
  | result (hi : writesResult i = true) (v : Int) : Changes s i (s.setResult v)
  | bright (b : Int) (hi : i = .setBright b) : Changes s i (s.setBright (byteOf b))
  | buffer (fb : Memory) : Changes s i { s with fb := fb }
  | sent (hi : i = .flush ∨ ∃ a b, i = .rainbow a b) (fb : Memory) : Changes s i (State.flushed { s with fb := fb })

theorem changes_of_sameButFb {s t : State} (h : SameButFb s t) (i : Instr) : Changes s i t := by
  rw [h]; exact .buffer t.fb

theorem effect_changes (i : Instr) (s : State) : Changes s i (effect i s) := by
  cases i with
  | pack | unpackR | unpackG | unpackB | hsl | mapXyz | length | power | getPix => exact .result rfl _
  | setBright b => exact .bright b rfl
  | setPix | setXyz => exact changes_of_sameButFb (sameButFb_writePixel s _ _) _
  | setAll | ease | shift | rotate | clear => exact .buffer _
  | flush => exact .sent (.inl rfl) s.fb
  | rainbow a b =>
    simp only [effect]
    split
    · exact .buffer s.fb
    · exact .sent (.inr ⟨a, b, rfl⟩) _

theorem exec_changes {i : Instr} {s t : State} (h : exec i s = .next t) : Changes s i t := by
  obtain ⟨-, rfl⟩ := exec_eq_next.1 h
  exact effect_changes i s

/-- What no command changes. -/
theorem Changes.keeps {s t : State} {i : Instr} (h : Changes s i t) :
    t.cfg = s.cfg ∧ t.txline = s.txline ∧ t.input = s.input ∧ t.err = s.err := by
  cases h <;> exact ⟨rfl, rfl, rfl, rfl⟩

@[simp] theorem effect_err (i : Instr) (s : State) : (effect i s).err = s.err := by
  obtain ⟨-, -, -, herr⟩ := (effect_changes i s).keeps
  exact herr

/-- Settles O14: of the four ways to change the state, the one that writes `BRIGHT` is SETBRIGHT's. -/
theorem onlySetbrightChangesBright : Obligations.OnlySetbrightChangesBright := by
  intro i s t h hne
  cases exec_changes h with
  | result | buffer | sent => rfl
  | bright b hi => exact absurd hi (hne b)

/-- Settles O15: only a result-producing command writes `RESULT`. -/
theorem onlyResultCommandsChangeResult : Obligations.OnlyResultCommandsChangeResult := by
  intro i s t h hno
  cases exec_changes h with
  | result hyes => rw [hno] at hyes; cases hyes
  | bright | buffer | sent => rfl

/-- Settles O16: the flush comes last, so its frame is the buffer of the next state. -/
theorem txlogGrowsOnlyByOneWholeFrame : Obligations.TxlogGrowsOnlyByOneWholeFrame := by
  intro i s t h
  cases exec_changes h with
  | result | bright | buffer => exact .inl rfl
  | sent hi fb => exact .inr ⟨hi, _, State.flushed_txlog _, frame_isFrameOf { s with fb := fb }⟩

/-- Settles O18: none of the four ways to change the state touches these fields. -/
theorem commandsKeepConfigurationAndLine : Obligations.CommandsKeepConfigurationAndLine := by
  intro i s t h
  obtain ⟨hcfg, htxline, hinput, -⟩ := (exec_changes h).keeps
  exact ⟨hcfg, htxline, hinput⟩

/-! ### `ERR` -/

/-- Settles O13, event by event: no command changes `ERR`, and a word that does not decode is one the table does not
list. -/
theorem errIsStickyUntilReset : Obligations.ErrIsStickyUntilReset := by
  intro s t h
  obtain ⟨-, ⟨hi, rfl⟩ | ⟨rest, hi, rfl⟩ | ⟨w, rest, i, hi, hd, rfl⟩ | ⟨w, rest, hi, hd, rfl⟩⟩ := step_cases h
  · rw [hi]
  · rw [hi]; rfl
  · obtain ⟨hrsv, hopc⟩ := legal_of_decode_eq_some hd
    simp [hi, State.errOutput, hrsv, hopc]
  · rw [hi]
    simp only [State.errOutput, ← Bool.decide_and, decide_eq_false (not_legal_of_decode_eq_none hd), Bool.not_false,
      Bool.or_true]

/-! ### What no command reads -/

/-- `s` with any other `RESULT`, `ERR` and `TXLINE`. -/
def State.relabel (s : State) (r : Word) (e l : Bool) : State := { s with result := r, err := e, txline := l }

/-- `u` is `t` but for `RESULT`, `ERR` and `TXLINE`. -/
def SameOutput (t u : State) : Prop := u = { t with result := u.result, err := u.err, txline := u.txline }

/-- Two commands' branches on one condition are compared branch by branch. -/
theorem SameOutput.ite {p : Prop} [Decidable p] {t u t' u' : State} (h : SameOutput t u) (h' : SameOutput t' u') :
    SameOutput (if p then t else t') (if p then u else u') := by
  split
  · exact h
  · exact h'

/-- A command's effect on everything else does not depend on `RESULT`, `ERR` and `TXLINE`. -/
theorem effect_sameOutput (i : Instr) (s : State) (r : Word) (e l : Bool) :
    SameOutput (effect i s) (effect i (s.relabel r e l)) := by
  cases i with
  | setPix o => exact .ite (p := InWindow s.cfg o) rfl rfl
  | setXyz x y z => exact .ite (p := InWindow s.cfg (voxelOffset x y z)) rfl rfl
  | rainbow => exact .ite (p := s.cfg.length = 0) rfl rfl
  | _ => rfl

/-- Settles O19, event by event: both steps take the same event, and a command's effect reads none of the three. -/
theorem resultAndErrNeverReachTheOutput : Obligations.ResultAndErrNeverReachTheOutput := by
  intro s t r e l h
  obtain ⟨hl, ⟨hi, rfl⟩ | ⟨rest, hi, rfl⟩ | ⟨w, rest, i, hi, hd, rfl⟩ | ⟨w, rest, hi, hd, rfl⟩⟩ := step_cases h
  · exact ⟨_, (step_of_idle (s := t.relabel r e l) hi).trans (finish_of_legal hl _), rfl⟩
  · exact ⟨_, (step_of_reset (s := s.relabel r e l) hi).trans (finish_of_legal hl _), rfl⟩
  · exact ⟨_, (step_of_command (s := s.relabel r e l) hi hd).trans
      (exec_of_legal (s := State.relabel { s with input := rest } r e l) hl i), effect_sameOutput i _ r e l⟩
  · exact ⟨_, (step_of_illegal (s := s.relabel r e l) hi hd).trans (finish_of_legal hl _), rfl⟩

/-! ### Reset, and the decoded command -/

/-- Settles O1, piece by piece. -/
theorem resetStateHoldsTheSpecValues : Obligations.ResetStateHoldsTheSpecValues :=
  ⟨fun c ev =>
    ⟨Memory.read_nil, State.resetWith_bright c ev, State.resetWith_result c ev, State.resetWith_err c ev,
      State.resetWith_cfg c ev, State.resetWith_txline c ev, State.resetWith_txlog c ev⟩,
    State.reset_eq, rfl, rfl⟩

/-- Settles O3: every byte reads 0x00 after reset, in the window or not. -/
theorem resetStateMeetsTheInvariants : Obligations.ResetStateMeetsTheInvariants :=
  fun _ ev h => ⟨resetWith_inv h ev, fun a _ => Memory.read_nil a, fun _ a _ => Memory.read_nil a⟩

/-- Settles O7: taking the word that `withFetchWord` placed leaves the state it was placed in. -/
theorem stepExecutesTheDecodedCommand : Obligations.StepExecutesTheDecodedCommand :=
  ⟨fun _ _ _ _ => step_of_command, fun s nbits w _ hd => step_of_command (s := s.withFetchWord nbits w) rfl hd⟩

end Sys2Proof.Machine

/-!
PROOFS. The memory (20_memory.md): which bytes of `FB` a command can change (R40), and that the bytes outside the window
stay dark (R46).
-/

namespace Sys2Proof.Machine

/-! ### What the shared stores leave alone -/

/-- Storing the window leaves the bytes outside it alone. -/
theorem read_mapWindow_of_not_windowAddr {s : State} {a : Nat} (h : ¬ WindowAddr s.cfg a) (f : Nat → Nat → Byte) :
    (s.mapWindow f).fb.read a = s.fb.read a := by
  rw [read_mapWindow, if_neg (mt windowAddr_iff.2 h)]

/-- Painting the window, whatever the colour of each pixel, leaves the W bytes and the bytes outside it alone (R123). -/
theorem read_paintWindow_of_not_colour {s : State} {a : Nat} (h : ¬ (WindowAddr s.cfg a ∧ a % s.cfg.stride.bytes ≤ 2))
    (colour : Nat → Int) : (s.mapWindow fun k j => s.paintedByte (colour k) k j).fb.read a = s.fb.read a := by
  by_cases hwin : WindowAddr s.cfg a
  · obtain ⟨hlo, hhi⟩ := windowAddr_iff.1 hwin
    have hwhite : ¬ (a - windowBase s.cfg) % s.cfg.stride.bytes < 3 := fun hlt =>
      h ⟨hwin, by rw [← channel_eq_mod hlo]; omega⟩
    rw [read_mapWindow, if_pos ⟨hlo, hhi⟩, State.paintedByte, if_neg hwhite, State.windowByte, pixelAddr_div_mod hlo,
      State.memRead]
  · exact read_mapWindow_of_not_windowAddr hwin _

/-- A pixel write leaves all but the three colour bytes of an admitted pixel alone (R111). -/
theorem read_writePixel_of_not_colour {s : State} {o : Int} {a : Nat}
    (h : ¬ (InWindow s.cfg o ∧ pixelAddr s.cfg o.toNat ≤ a ∧ a ≤ pixelAddr s.cfg o.toNat + 2)) (rgb : Int) :
    (s.writePixel o rgb).fb.read a = s.fb.read a := by
  by_cases ho : InWindow s.cfg o
  · rw [read_writePixel ho, if_neg fun ha => h ⟨ho, ha⟩]
  · rw [writePixel_of_not_inWindow ho]

/-! ### The table of R40 -/

/-- Every command reads as before outside its row's range. -/
theorem read_effect_of_not_writeRange {i : Instr} {s : State} {a : Nat} (h : ¬ WriteRange s.cfg a i) :
    (effect i s).fb.read a = s.fb.read a := by
  cases i with
  | pack | unpackR | unpackG | unpackB | hsl | mapXyz | setBright | length | power | getPix | flush => rfl
  | setPix | setXyz => exact read_writePixel_of_not_colour h _
  | setAll rgb => exact read_paintWindow_of_not_colour h fun _ => rgb
  | ease | shift | rotate => exact read_mapWindow_of_not_windowAddr h _
  | clear =>
    have hout : ¬ (windowBase s.cfg ≤ a ∧ a < windowBase s.cfg + (windowBytes s.cfg - windowBase s.cfg)) :=
      fun ⟨hlo, hhi⟩ => h ⟨hlo, show a < windowBytes s.cfg by omega⟩
    simp only [effect, Memory.read_fill, if_neg hout]
  | rainbow hueA hueB =>
    simp only [effect]
    split
    · rfl
    · exact read_paintWindow_of_not_colour h (rainbowColour hueA hueB s.cfg.length)

/-- Settles O17, command by command. -/
theorem frameBufferChangesOnlyInTheTabulatedRange : Obligations.FrameBufferChangesOnlyInTheTabulatedRange := by
  intro i s t a hexec h
  obtain ⟨-, rfl⟩ := exec_eq_next.1 hexec
  exact read_effect_of_not_writeRange h

/-! ### The bytes outside the window -/

/-- The colour bytes of a window pixel lie in the window. -/
theorem windowAddr_of_colour {c : Config} {o : Int} {a : Nat} (ho : InWindow c o) (hlo : pixelAddr c o.toNat ≤ a)
    (hhi : a ≤ pixelAddr c o.toNat + 2) : WindowAddr c a := by
  have hlast : pixelAddr c o.toNat + 2 < windowBase c + windowBytes c := pixelByte_lt (by omega) (three_le_stride _)
  have hfirst : windowBase c ≤ pixelAddr c o.toNat := by rw [pixelAddr_eq]; omega
  exact windowAddr_iff.2 ⟨hfirst.trans hlo, hhi.trans_lt hlast⟩

/-- No row of the table reaches outside the window; CLEAR's literal range ends `START` pixels before the window does
(90_conflicts.md C4). -/
theorem WriteRange.windowAddr {c : Config} {a : Nat} {i : Instr} (h : WriteRange c a i) : WindowAddr c a := by
  cases i with
  | pack | unpackR | unpackG | unpackB | hsl | mapXyz | setBright | length | power | getPix | flush => exact h.elim
  | setPix | setXyz =>
    obtain ⟨ho, hlo, hhi⟩ := h
    exact windowAddr_of_colour ho hlo hhi
  | setAll | rainbow => exact h.1
  | ease | shift | rotate => exact h
  | clear =>
    obtain ⟨hlo, hhi⟩ := h
    exact ⟨hlo, hhi.trans_le (Nat.mul_le_mul_right _ (Nat.le_add_left _ _))⟩

@[simp] theorem effect_cfg (i : Instr) (s : State) : (effect i s).cfg = s.cfg := by
  obtain ⟨hcfg, -⟩ := (effect_changes i s).keeps
  exact hcfg

/-- A command writes inside the window only, so it keeps the rest dark. -/
theorem effect_darkOutsideWindow {s : State} (h : s.DarkOutsideWindow) (i : Instr) :
    (effect i s).DarkOutsideWindow := by
  intro a hout
  rw [effect_cfg] at hout
  rw [read_effect_of_not_writeRange (mt WriteRange.windowAddr hout), h a hout]

/-- Settles O5, event by event: a reset darkens every byte, an idle step and an illegal word store none, and a command
stores in the window only. -/
theorem everyStepKeepsTheOutsideDark : Obligations.EveryStepKeepsTheOutsideDark := by
  intro s t h hstep
  obtain ⟨-, ⟨-, rfl⟩ | ⟨rest, -, rfl⟩ | ⟨w, rest, i, -, -, rfl⟩ | ⟨w, rest, -, -, rfl⟩⟩ := step_cases hstep
  · exact h
  · exact fun a _ => Memory.read_nil a
  · exact effect_darkOutsideWindow (s := { s with input := rest }) h i
  · exact h

end Sys2Proof.Machine

/-!
PROOFS. The encoding (30_encoding.md): which word stands for which command, and what the assembler and SHOWCOLOR make of
it.
-/

namespace Sys2Proof

/-! ### What a word stands for -/

/-- The four operand fields of a word, in the order A, B, C, D, as signed integers (30_encoding.md R61). -/
def fieldValues (w : Command) : List Int := [(fieldA w).toInt, (fieldB w).toInt, (fieldC w).toInt, (fieldD w).toInt]

theorem inOperandRange_of_mem_fieldValues {w : Command} {v : Int} (h : v ∈ fieldValues w) : InOperandRange v := by
  simp only [fieldValues, List.mem_cons, List.not_mem_nil, or_false] at h
  obtain rfl | rfl | rfl | rfl := h <;> exact sext32_range _

/-- A word that decodes took the branch of one of the table's rows. -/
theorem opc_and_operands_of_decode {w : Command} {i : Instr} (h : decode w = some i) :
    opc w = opcodeOf i ∧ i.operands = (fieldValues w).take i.operands.length := by
  unfold decode at h
  split at h
  · split at h
    case h_20 => cases h -- no row's opcode
    all_goals
      rename_i hopc
      cases h
      exact ⟨hopc, rfl⟩
  · cases h

/-- The opcode and the leading fields determine the row's branch. -/
theorem decode_of_opc_and_operands {w : Command} {i : Instr} (hrsv : rsv w = 0#24) (hopc : opc w = opcodeOf i)
    (hops : i.operands = (fieldValues w).take i.operands.length) : decode w = some i := by
  unfold decode
  rw [if_pos hrsv, hopc]
  cases i with
  | _ =>
    cases hops
    rfl

/-- The encoding as one equivalence: a word stands for a command exactly when its `RSV` is 0, its `OPC` is the
command's, and its leading fields are the command's operands (30_encoding.md R60 to R64). -/
theorem decode_eq_some_iff {w : Command} {i : Instr} :
    decode w = some i ↔
      rsv w = 0#24 ∧ opc w = opcodeOf i ∧ i.operands = (fieldValues w).take i.operands.length :=
  ⟨fun h => ⟨(legal_of_decode_eq_some h).1, opc_and_operands_of_decode h⟩,
    fun ⟨hrsv, hopc, hops⟩ => decode_of_opc_and_operands hrsv hopc hops⟩

/-- Settles O23: every operand is one of the word's fields. -/
theorem decodedCommandsAreWellFormed : Obligations.DecodedCommandsAreWellFormed := by
  intro w i h
  obtain ⟨-, hopc, hops⟩ := decode_eq_some_iff.1 h
  refine ⟨fun v hv => ?_, hopc.symm, hops⟩
  rw [hops] at hv
  exact inOperandRange_of_mem_fieldValues (List.mem_of_mem_take hv)

/-- Settles O21: with `RSV = 0`, a row's command asks for its opcode and the fields it uses, nothing else. -/
theorem opcodesSelectTheirCommands : Obligations.OpcodesSelectTheirCommands := by
  and_intros <;> exact fun w hopc hrsv => decode_eq_some_iff.2 ⟨hrsv, hopc, rfl⟩

/-- Settles O24, word by word. -/
theorem writtenOutWordsDecode : Obligations.WrittenOutWordsDecode := by
  and_intros <;> decide

/-! ### The word of a command -/

/-- The word of every command carries its operands in the leading fields and 0 in the others. -/
theorem encodeFields : ∀ i : Instr, Laws.EncodeFields.Statement i
  | .pack r g b       => Laws.EncodeFields.pack r g b
  | .unpackR rgb      => Laws.EncodeFields.unpackR rgb
  | .unpackG rgb      => Laws.EncodeFields.unpackG rgb
  | .unpackB rgb      => Laws.EncodeFields.unpackB rgb
  | .hsl h s l        => Laws.EncodeFields.hsl h s l
  | .mapXyz x y z     => Laws.EncodeFields.mapXyz x y z
  | .setPix o rgb     => Laws.EncodeFields.setPix o rgb
  | .setXyz x y z rgb => Laws.EncodeFields.setXyz x y z rgb
  | .setAll rgb       => Laws.EncodeFields.setAll rgb
  | .clear            => Laws.EncodeFields.clear
  | .setBright b      => Laws.EncodeFields.setBright b
  | .ease             => Laws.EncodeFields.ease
  | .shift n          => Laws.EncodeFields.shift n
  | .rotate n         => Laws.EncodeFields.rotate n
  | .length           => Laws.EncodeFields.length
  | .power            => Laws.EncodeFields.power
  | .getPix o         => Laws.EncodeFields.getPix o
  | .rainbow a b      => Laws.EncodeFields.rainbow a b
  | .flush            => Laws.EncodeFields.flush

/-- No bit of an operand in range is lost on the way into its field and back (30_encoding.md R61). -/
theorem map_toInt_ofInt {vs : List Int} (h : ∀ v ∈ vs, InOperandRange v) :
    (vs.map (BitVec.ofInt 32)).map BitVec.toInt = vs := by
  rw [List.map_map]
  exact (List.map_congr_left fun v hv => sext32_ofInt (h v hv)).trans (List.map_id vs)

theorem take_fieldValues_encode {i : Instr} (h : i.WellFormed) :
    (fieldValues (encode i)).take i.operands.length = i.operands := by
  obtain ⟨-, -, hfields⟩ := encodeFields i
  calc (fieldValues (encode i)).take i.operands.length
      = ((i.operands.map (BitVec.ofInt 32) ++ List.replicate (4 - i.operands.length) 0#32).map BitVec.toInt).take
          i.operands.length := by rw [← hfields]; rfl
    _ = (i.operands ++ (List.replicate (4 - i.operands.length) 0#32).map BitVec.toInt).take i.operands.length := by
        rw [List.map_append, map_toInt_ofInt h]
    _ = i.operands := List.take_left

theorem decode_encode {i : Instr} (h : i.WellFormed) : decode (encode i) = some i := by
  obtain ⟨hopc, hrsv, -⟩ := encodeFields i
  exact decode_eq_some_iff.2 ⟨hrsv, hopc, (take_fieldValues_encode h).symm⟩

/-- Settles O22: the word carries the command's opcode and operands, and a word that does stands for the command. -/
theorem decodeOfEncodeIsIdentity : Obligations.DecodeOfEncodeIsIdentity := fun _ => decode_encode

end Sys2Proof

namespace Sys2Proof.Machine

/-- Settles O20: a word that is not in the table does not decode, and such a word raises the exception. -/
theorem legalWordsAreExactlyTheTable : Obligations.LegalWordsAreExactlyTheTable := by
  refine ⟨decode_isSome_iff, fun s w rest hlegal hinput hword => ?_, by decide, by decide⟩
  have hnone : decode w = none := by rwa [← decode_isSome_iff, Option.not_isSome_iff_eq_none] at hword
  rw [step_of_illegal hinput hnone, finish_of_legal (s := { s with input := rest }) hlegal]

/-- Settles O25: the range is `assembleValue`'s own condition, and the two lines are run. -/
theorem operandRangeAndSampleLinesAssemble : Obligations.OperandRangeAndSampleLinesAssemble :=
  ⟨fun _ => rfl, by decide +kernel, by decide +kernel⟩

/-! ### The painted colour in words of bits -/

theorem channelOf_red (rgb : Int) : channelOf rgb 0 = BitVec.ofInt 8 (rgb / 65536) := by
  apply BitVec.eq_of_toNat_eq
  simp [channelOf, Nat.shiftRight_eq_div_pow]
  omega

theorem channelOf_green (rgb : Int) : channelOf rgb 1 = BitVec.ofInt 8 (rgb / 256) := by
  apply BitVec.eq_of_toNat_eq
  simp [channelOf, Nat.shiftRight_eq_div_pow]
  omega

/-- Channel 2, and every number above it: `channelOf` subtracts on natural numbers. -/
theorem channelOf_blue (rgb : Int) (j : Nat) : channelOf rgb (j + 2) = BitVec.ofInt 8 rgb := by
  have hlo : 16 - 8 * (j + 2) = 0 := by omega
  apply BitVec.eq_of_toNat_eq
  simp [channelOf, hlo]
  omega

/-- `scale` on the integer of a channel is `dimmed` on its byte (42_framebuffer_engine.md R110). -/
theorem byteOf_scale_u8 (bright : Byte) (v : Int) :
    byteOf (scale bright (u8 v)) = dimmed bright (BitVec.ofInt 8 v) := by
  have hch : u8 v = ((BitVec.ofInt 8 v).toNat : Int) := by
    simp [u8]
    omega
  rw [hch, scale, dimmed]
  split
  · exact byteOf_natCast _
  · rw [byteOf_eq, ← BitVec.ofInt_natCast]
    push_cast
    rfl

/-- The byte a colour write stores is the dimmed channel of the colour (R110, R111). -/
theorem channelByte_eq_dimmed (bright : Byte) (rgb : Int) :
    ∀ j, channelByte bright rgb j = dimmed bright (channelOf rgb j)
  | 0     => by rw [channelOf_red]; exact byteOf_scale_u8 _ _
  | 1     => by rw [channelOf_green]; exact byteOf_scale_u8 _ _
  | j + 2 => by rw [channelOf_blue]; exact byteOf_scale_u8 _ _

/-- Byte by byte, what painting the window leaves, whatever the colour of each pixel (R114, R123). -/
theorem read_paintWindow (s : State) (colour : Nat → Int) (a : Nat) :
    (s.mapWindow fun k j => s.paintedByte (colour k) k j).fb.read a =
      if WindowAddr s.cfg a ∧ a % s.cfg.stride.bytes < 3 then
        dimmed s.bright (channelOf (colour (a / s.cfg.stride.bytes - s.cfg.start)) (a % s.cfg.stride.bytes))
      else s.fb.read a := by
  split
  next h =>
    obtain ⟨hwin, hcolour⟩ := h
    have hwin' := windowAddr_iff.1 hwin
    rw [read_mapWindow, if_pos hwin', channel_eq_mod hwin'.1, pixel_eq_div hwin'.1, State.paintedByte, if_pos hcolour,
      channelByte_eq_dimmed]
  next h => exact read_paintWindow_of_not_colour (by rwa [Nat.lt_succ_iff] at h) colour

/-! ### SHOWCOLOR -/

/-- A step on the word of a command that a word can carry leaves the command's effect. -/
theorem step_of_encode {s : State} {i : Instr} {rest : List HostEvent} (hlegal : s.cfg.Legal) (hi : i.WellFormed)
    (hinput : s.input = .command (encode i) :: rest) : step s = .next (effect i { s with input := rest }) :=
  (step_of_command hinput (decode_encode hi)).trans (exec_of_legal (s := { s with input := rest }) hlegal i)

/-- Settles O51: the flush comes last, so its frame is the painted buffer. -/
theorem showcolorPaintsAndSendsOneFrame : Obligations.ShowcolorPaintsAndSendsOneFrame := by
  intro rgb s rest hlegal hrgb hinput
  have hpaint : step s = .next (effect (.setAll rgb) { s with input := .command (encode .flush) :: rest }) :=
    step_of_encode hlegal (List.forall_mem_singleton.2 hrgb) hinput
  have hsend : step (effect (.setAll rgb) { s with input := .command (encode .flush) :: rest }) =
      .next (effect (.setAll rgb) { s with input := rest }).flushed :=
    step_of_encode (i := .flush) hlegal (List.forall_mem_nil _) rfl
  exact ⟨_, _, _, hpaint, hsend, frame_isFrameOf (effect (.setAll rgb) { s with input := rest }), rfl,
    read_paintWindow _ fun _ => rgb⟩

end Sys2Proof.Machine

/-!
PROOFS. The color_model (40_color_model.md): packing and unpacking a colour, and the colour of a hue, a saturation and a
luminance.
-/

namespace Sys2Proof.Machine

/-! ### PACK -/

theorem toNat_ofInt_byte (v : Int) : ((BitVec.ofInt 8 v).toNat : Int) = u8 v := by
  rw [BitVec.toNat_ofInt, u8]
  omega

theorem toNat_rgbWord (r g b : Byte) : (rgbWord r g b).toNat = r.toNat * 65536 + g.toNat * 256 + b.toNat := by
  have hrg : r.toNat <<< 8 ||| g.toNat = r.toNat <<< 8 + g.toNat := (Nat.shiftLeft_add_eq_or_of_lt g.isLt _).symm
  have hb : (r.toNat <<< 8 + g.toNat) <<< 8 ||| b.toNat = (r.toNat <<< 8 + g.toNat) <<< 8 + b.toNat :=
    (Nat.shiftLeft_add_eq_or_of_lt b.isLt _).symm
  simp only [rgbWord, BitVec.toNat_append, BitVec.toNat_ofNat, Nat.zero_mod, Nat.zero_shiftLeft, Nat.zero_or, hrg, hb]
  simp only [Nat.shiftLeft_eq]
  ring

/-- `pack` and RESULT's bytes name one word (R80, 30_encoding.md R69). -/
theorem u32_pack (r g b : Int) :
    u32 (pack r g b) = rgbWord (BitVec.ofInt 8 r) (BitVec.ofInt 8 g) (BitVec.ofInt 8 b) := by
  have hword := toNat_rgbWord (BitVec.ofInt 8 r) (BitVec.ofInt 8 g) (BitVec.ofInt 8 b)
  have hpack : pack r g b = ((rgbWord (BitVec.ofInt 8 r) (BitVec.ofInt 8 g) (BitVec.ofInt 8 b)).toNat : Int) := by
    rw [hword, pack, ← toNat_ofInt_byte, ← toNat_ofInt_byte, ← toNat_ofInt_byte]
    push_cast
    rfl
  rw [hpack, u32, BitVec.ofInt_natCast, BitVec.ofNat_toNat, BitVec.setWidth_eq]

/-- Settles O26: the word of `pack` is the three low bytes below eight zero bits. -/
theorem packConcatenatesLowBytes : Obligations.PackConcatenatesLowBytes := by
  obtain ⟨hselects, -⟩ := opcodesSelectTheirCommands
  refine ⟨hselects, fun r g b s hlegal => ?_⟩
  rw [exec_of_legal hlegal, effect, State.setResult, u32_pack]

/-! ### UNPACKR, UNPACKG, UNPACKB -/

theorem u32_u8 (v : Int) : u32 (u8 v) = (BitVec.ofInt 8 v).setWidth 32 := by
  rw [u32, ← toNat_ofInt_byte, BitVec.ofInt_natCast, BitVec.ofNat_toNat]

/-- A channel of a packed colour, zero-extended, is the shifted and masked pattern (R81). -/
theorem setWidth_channelOf (rgb : Int) (j : Nat) :
    (channelOf rgb j).setWidth 32 = (BitVec.ofInt 32 rgb >>> (16 - 8 * j)) &&& 0xFF#32 := by
  apply BitVec.eq_of_getLsbD_eq
  intro i hi
  have hmask : (0xFF#32).getLsbD i = decide (i < 8) := by
    rw [BitVec.getLsbD_ofNat, Nat.testBit_two_pow_sub_one 8 i, decide_eq_true hi, Bool.true_and]
  rw [BitVec.getLsbD_setWidth, channelOf, BitVec.getLsbD_extractLsb', BitVec.getLsbD_and,
    BitVec.getLsbD_ushiftRight, hmask, decide_eq_true hi, Bool.true_and, Bool.and_comm]

theorem u32_unpackR (rgb : Int) : u32 (unpackR rgb) = (BitVec.ofInt 32 rgb >>> 16) &&& 0xFF#32 := by
  rw [unpackR, u32_u8, ← channelOf_red, setWidth_channelOf]

theorem u32_unpackG (rgb : Int) : u32 (unpackG rgb) = (BitVec.ofInt 32 rgb >>> 8) &&& 0xFF#32 := by
  rw [unpackG, u32_u8, ← channelOf_green, setWidth_channelOf]

theorem u32_unpackB (rgb : Int) : u32 (unpackB rgb) = BitVec.ofInt 32 rgb &&& 0xFF#32 := by
  rw [unpackB, u32_u8, ← channelOf_blue rgb 0, setWidth_channelOf]
  exact congrArg (· &&& 0xFF#32) (BitVec.ushiftRight_zero _)

/-- Settles O27: each channel is the shifted and masked pattern of the operand. -/
theorem unpackExtractsTheChannel : Obligations.UnpackExtractsTheChannel := by
  obtain ⟨-, hselectsR, hselectsG, hselectsB, -⟩ := opcodesSelectTheirCommands
  refine ⟨hselectsR, hselectsG, hselectsB, fun rgb s hlegal => ⟨?_, ?_, ?_⟩⟩
  · rw [exec_of_legal hlegal, effect, State.setResult, u32_unpackR]
  · rw [exec_of_legal hlegal, effect, State.setResult, u32_unpackG]
  · rw [exec_of_legal hlegal, effect, State.setResult, u32_unpackB]

/-- A channel passes through RESULT and back unchanged. -/
theorem toNat_u32_u8 (v : Int) : ((u32 (u8 v)).toNat : Int) = u8 v := by
  rw [u32_u8, BitVec.toNat_setWidth_of_le (by decide), toNat_ofInt_byte]

theorem pack_unpack (rgb : Int) : pack (unpackR rgb) (unpackG rgb) (unpackB rgb) = rgb % 16777216 := by
  simp only [pack, unpackR, unpackG, unpackB, u8]
  omega

/-- The mask of 24 ones keeps the value modulo `2^24`. -/
theorem u32_emod_eq_mask (v : Int) : u32 (v % 16777216) = BitVec.ofInt 32 v &&& 0xFFFFFF#32 := by
  apply BitVec.eq_of_toNat_eq
  have hmask : (BitVec.ofInt 32 v &&& 0xFFFFFF#32).toNat = (BitVec.ofInt 32 v).toNat % 2 ^ 24 :=
    Nat.and_two_pow_sub_one_eq_mod _ 24
  rw [hmask, u32, BitVec.toNat_ofInt, BitVec.toNat_ofInt]
  omega

/-- Settles O28: on the integers, packing the three channels gives the colour modulo `2^24`. -/
theorem packOfUnpackGivesTheColourBack : Obligations.PackOfUnpackGivesTheColourBack := by
  intro rgb s hlegal
  refine ⟨_, _, _, _, exec_of_legal hlegal _, exec_of_legal hlegal _, exec_of_legal hlegal _,
    exec_of_legal hlegal _, ?_⟩
  have hr : ((u32 (unpackR rgb)).toNat : Int) = unpackR rgb := toNat_u32_u8 _
  have hg : ((u32 (unpackG rgb)).toNat : Int) = unpackG rgb := toNat_u32_u8 _
  have hb : ((u32 (unpackB rgb)).toNat : Int) = unpackB rgb := toNat_u32_u8 _
  simp only [effect, State.setResult_result, hr, hg, hb, pack_unpack, u32_emod_eq_mask]

/-! ### HSL -/

theorem absInt_eq_abs (a : Int) : absInt a = |a| := by
  unfold absInt
  split
  next h => exact (abs_of_neg h).symm
  next h => exact (abs_of_nonneg (not_lt.1 h)).symm

theorem clamp_eq_max_min {lo hi : Int} (h : lo ≤ hi) (v : Int) : clamp v lo hi = max lo (min v hi) := by
  unfold clamp
  split_ifs <;> omega

/-- The two floors of `chroma` are one. -/
theorem chroma_eq (s l : Int) : chroma s l = (100 - |2 * l - 100|) * s * 256 / 10000 := by
  rw [chroma, absInt_eq_abs, Int.ediv_ediv_of_nonneg (by decide)]
  rfl

/-- The second component rises with the hue in an even sector. -/
theorem secondComponent_of_even {h : Int} (hsector : h / 60 % 2 = 0) (c : Int) :
    secondComponent h c = c * (h % 60 * 256 / 60) / 256 := by
  have hpos : h - 60 * (h / 60) = h % 60 := by omega
  have hfactor : 256 - absInt (0 * 256 + h % 60 * 256 / 60 - 256) = h % 60 * 256 / 60 := by
    unfold absInt
    omega
  simp only [secondComponent, hsector, hpos, hfactor]

/-- The second component falls with the hue in an odd sector. -/
theorem secondComponent_of_odd {h : Int} (hsector : h / 60 % 2 = 1) (c : Int) :
    secondComponent h c = c * (256 - h % 60 * 256 / 60) / 256 := by
  have hpos : h - 60 * (h / 60) = h % 60 := by omega
  have hfactor : absInt (1 * 256 + h % 60 * 256 / 60 - 256) = h % 60 * 256 / 60 := by
    unfold absInt
    omega
  simp only [secondComponent, hsector, hpos, hfactor]

/-- The sector table with `m` added to each channel is the table of `hslChannels`, sector by sector. -/
theorem hslChannels_eq {h : Int} (h₀ : 0 ≤ h) (h₁ : h < 360) (s l : Int) :
    hslChannels h s l =
      let m := luminanceOffset l (chroma s l)
      let q := sectorChannels (h / 60) (chroma s l) (secondComponent h (chroma s l))
      (q.1 + m, q.2.1 + m, q.2.2 + m) := by
  unfold hslChannels
  rw [← chroma_eq]
  dsimp only
  split_ifs
  · have hk : h / 60 = 0 := by omega
    rw [secondComponent_of_even (by omega), hk]
    simp [sectorChannels, luminanceOffset]
  · have hk : h / 60 = 1 := by omega
    rw [secondComponent_of_odd (by omega), hk]
    simp [sectorChannels, luminanceOffset]
  · have hk : h / 60 = 2 := by omega
    rw [secondComponent_of_even (by omega), hk]
    simp [sectorChannels, luminanceOffset]
  · have hk : h / 60 = 3 := by omega
    rw [secondComponent_of_odd (by omega), hk]
    simp [sectorChannels, luminanceOffset]
  · have hk : h / 60 = 4 := by omega
    rw [secondComponent_of_even (by omega), hk]
    simp [sectorChannels, luminanceOffset]
  · have hk : h / 60 = 5 := by omega
    rw [secondComponent_of_odd (by omega), hk]
    simp [sectorChannels, luminanceOffset]

/-! #### The channels before packing -/

/-- A share of `c` out of 256. -/
theorem share_range {c k : Int} (hc : 0 ≤ c) (hk₀ : 0 ≤ k) (hk : k ≤ 256) :
    0 ≤ c * k / 256 ∧ c * k / 256 ≤ c := by
  have hlo : 0 ≤ c * k := mul_nonneg hc hk₀
  have hhi : c * k ≤ c * 256 := mul_le_mul_of_nonneg_left hk hc
  omega

theorem secondComponent_range {c : Int} (hc : 0 ≤ c) (h : Int) :
    0 ≤ secondComponent h c ∧ secondComponent h c ≤ c := by
  obtain heven | hodd := Int.emod_two_eq_zero_or_one (h / 60)
  · rw [secondComponent_of_even heven]
    exact share_range hc (by omega) (by omega)
  · rw [secondComponent_of_odd hodd]
    exact share_range hc (by omega) (by omega)

/-- The colour of every hue lies between `m` and `c + m`, and these two in a byte (R83). -/
theorem chroma_range {s l : Int} (hs₀ : 0 ≤ s) (hs : s ≤ 99) (hl₀ : 0 ≤ l) (hl : l ≤ 99) :
    0 ≤ chroma s l ∧ 0 ≤ luminanceOffset l (chroma s l) ∧ chroma s l + luminanceOffset l (chroma s l) ≤ 255 := by
  have hspread : 0 ≤ 100 - |2 * l - 100| := by
    rw [sub_nonneg, abs_le]
    omega
  have hnonneg : 0 ≤ (100 - |2 * l - 100|) * s := mul_nonneg hspread hs₀
  have hle : (100 - |2 * l - 100|) * s ≤ (100 - |2 * l - 100|) * 99 := mul_le_mul_of_nonneg_left hs hspread
  rw [luminanceOffset, chroma_eq]
  generalize (100 - |2 * l - 100|) * s = p at *
  rcases abs_cases (2 * l - 100) with ⟨habs, hbright⟩ | ⟨habs, hdark⟩
  · rw [habs] at hle
    omega
  · rw [habs] at hle
    omega

theorem sectorChannels_range {c x : Int} (hx : 0 ≤ x ∧ x ≤ c) (h1 : Int) :
    let q := sectorChannels h1 c x
    (0 ≤ q.1 ∧ q.1 ≤ c) ∧ (0 ≤ q.2.1 ∧ q.2.1 ≤ c) ∧ (0 ≤ q.2.2 ∧ q.2.2 ≤ c) := by
  obtain ⟨hx₀, hxc⟩ := hx
  have hc₀ : 0 ≤ c := hx₀.trans hxc
  unfold sectorChannels
  split_ifs <;> simp [hx₀, hxc, hc₀]

theorem hslChannels_range {h s l : Int} (hh₀ : 0 ≤ h) (hh : h < 360) (hs₀ : 0 ≤ s) (hs : s ≤ 99) (hl₀ : 0 ≤ l)
    (hl : l ≤ 99) :
    let q := hslChannels h s l
    (0 ≤ q.1 ∧ q.1 ≤ 255) ∧ (0 ≤ q.2.1 ∧ q.2.1 ≤ 255) ∧ (0 ≤ q.2.2 ∧ q.2.2 ≤ 255) := by
  obtain ⟨hc, hm, hcm⟩ := chroma_range hs₀ hs hl₀ hl
  obtain ⟨hr, hg, hb⟩ := sectorChannels_range (secondComponent_range hc h) (h / 60)
  rw [hslChannels_eq hh₀ hh]
  dsimp only
  omega

/-- HSL packs the channels of the reduced hue and the clamped saturation and luminance. -/
theorem hsl_eq_pack (h s l : Int) :
    hsl h s l =
      let q := hslChannels (h % 360) (max 0 (min s 99)) (max 0 (min l 99))
      pack q.1 q.2.1 q.2.2 := by
  rw [hsl, clamp_eq_max_min (by decide), clamp_eq_max_min (by decide),
    hslChannels_eq (Int.emod_nonneg h (by decide)) (Int.emod_lt_of_pos h (by decide))]

/-- Settles O29: `hsl` packs the channels of the table, and these lie between `m` and `c + m`. -/
theorem hslReturnsTheSectorColour : Obligations.HslReturnsTheSectorColour := by
  obtain ⟨-, -, -, -, hselects, -⟩ := opcodesSelectTheirCommands
  refine ⟨hselects, fun h sat l s hlegal => ?_⟩
  obtain ⟨hr, hg, hb⟩ := hslChannels_range (h := h % 360) (s := max 0 (min sat 99)) (l := max 0 (min l 99))
    (by omega) (by omega) (by omega) (by omega) (by omega) (by omega)
  refine ⟨hr, hg, hb, ?_⟩
  rw [exec_of_legal hlegal, effect, State.setResult, hsl_eq_pack, u32_pack]

/-! #### What HSL ignores -/

/-- Without saturation every channel is the luminance offset. -/
theorem hslChannels_grey (h l : Int) :
    hslChannels h 0 l = (luminanceOffset l 0, luminanceOffset l 0, luminanceOffset l 0) := by
  unfold hslChannels
  split_ifs <;> simp [luminanceOffset]

theorem exec_hsl_congr {h h' sat sat' l l' : Int} (heq : hsl h sat l = hsl h' sat' l') (s : State) :
    exec (.hsl h sat l) s = exec (.hsl h' sat' l') s := by
  rw [exec_eq_finish, exec_eq_finish, effect, effect, heq]

/-- Settles O30: `hsl` reads its operands through the reduction and the two clamps only. -/
theorem hslWrapsHueAndClampsTheRest : Obligations.HslWrapsHueAndClampsTheRest := by
  refine fun h k sat l s => ⟨exec_hsl_congr ?_ s, fun hsat => exec_hsl_congr ?_ s, fun hsat => exec_hsl_congr ?_ s,
    fun hl => exec_hsl_congr ?_ s, fun hl => exec_hsl_congr ?_ s⟩
  all_goals rw [hsl_eq_pack, hsl_eq_pack]
  · rw [Int.add_mul_emod_self_left]
  · have hclamp : max 0 (min sat 99) = 0 := by omega
    rw [hclamp]
    simp [hslChannels_grey]
  · have hclamp : max 0 (min sat 99) = max 0 (min 99 99) := by omega
    rw [hclamp]
  · have hclamp : max 0 (min l 99) = max 0 (min 0 99) := by omega
    rw [hclamp]
  · have hclamp : max 0 (min l 99) = max 0 (min 99 99) := by omega
    rw [hclamp]

end Sys2Proof.Machine

/-!
PROOFS. The coordinate_mapper (41_coordinate_mapper.md): MAPXYZ on the patterns of its operands, and on the voxels of the
cube.
-/

namespace Sys2Proof.Machine

/-! ### MAPXYZ on 32-bit patterns -/

/-- Bit 0 of a pattern is the parity of the integer, for a negative one too (00_scope.md R8). -/
theorem getLsbD_u32_zero (v : Int) : (u32 v).getLsbD 0 = decide (odd v) := by
  rw [u32, BitVec.getLsbD, Nat.testBit_zero, BitVec.toNat_ofInt, decide_eq_decide]
  omega

/-- Each of the two reflections of `offset`, on patterns: `c` is the tested coordinate, `r` the reflected one (R100). -/
theorem u32_reflect (c r v : Int) :
    u32 (if odd c then 7 - r else v) = if (u32 c).getLsbD 0 then 7#32 - u32 r else u32 v := by
  have hsub : u32 (7 - r) = 7#32 - u32 r := by
    rw [eq_sub_iff_add_eq, u32, u32, ← BitVec.ofInt_add, sub_add_cancel]
    rfl
  rw [apply_ite u32, hsub, getLsbD_u32_zero]
  simp only [decide_eq_true_eq]

/-- Step 3 of `offset` on patterns. -/
theorem u32_linear (x y z : Int) : u32 (z * 64 + x * 8 + y) = u32 z * 64#32 + u32 x * 8#32 + u32 y := by
  simp only [u32, BitVec.ofInt_add, BitVec.ofInt_mul, BitVec.ofInt_ofNat]

/-- Settles O31: the pattern of the offset is computed from the patterns of the coordinates, step by step. -/
theorem mapxyzComputesTheLiteralOffset : Obligations.MapxyzComputesTheLiteralOffset := by
  obtain ⟨-, -, -, -, -, hselects, -⟩ := opcodesSelectTheirCommands
  refine ⟨hselects, fun x y z s hlegal => ?_⟩
  rw [exec_of_legal hlegal, effect, State.setResult, voxelOffset, u32_linear, u32_reflect _ _ y, u32_reflect z x x]
  rfl

/-! ### MAPXYZ on the cube -/

/-- The two closed forms of R101, for the reflected coordinate `x'`. -/
def cubeOffset (x' y z : Nat) : Nat := if x' % 2 = 1 then 64 * z + 7 * x' + 7 else 64 * z + 8 * x' + y

/-- 504 is reached for `x' = 7` in layer 7; an even `x'` is at most 6, and so stays one below (R101). -/
theorem cubeOffset_le {x' y z : Nat} (hx' : x' ≤ 7) (hy : y ≤ 7) (hz : z ≤ 7) : cubeOffset x' y z ≤ 504 := by
  unfold cubeOffset
  split <;> omega

theorem reflect_le {x : Nat} (hx : x ≤ 7) (z : Nat) : (if z % 2 = 1 then 7 - x else x) ≤ 7 := by
  split <;> omega

/-- Inside the cube the reflection of step 1 is a subtraction of natural numbers. -/
theorem natCast_reflect {x : Nat} (hx : x ≤ 7) (z : Nat) :
    ((if z % 2 = 1 then 7 - x else x : Nat) : Int) = if odd z then 7 - (x : Int) else x := by
  unfold odd
  split_ifs <;> omega

theorem voxelOffset_natCast {x : Nat} (hx : x ≤ 7) (y z : Nat) :
    voxelOffset x y z = cubeOffset (if z % 2 = 1 then 7 - x else x) y z := by
  rw [voxelOffset, ← natCast_reflect hx, cubeOffset]
  generalize (if z % 2 = 1 then 7 - x else x) = x'
  dsimp only [odd]
  split_ifs <;> omega

theorem toNat_u32_natCast {n : Nat} (hn : n < 2 ^ 32) : (u32 n).toNat = n := by
  rw [u32, BitVec.ofInt_natCast, BitVec.toNat_ofNat, Nat.mod_eq_of_lt hn]

/-- Settles O32: the offset is `cubeOffset` of the reflected `x`, too small to lose a bit in RESULT. -/
theorem mapperStaysInTheCube : Obligations.MapperStaysInTheCube := by
  intro x y z s hlegal hx hy hz
  have hx7 : x ≤ 7 := Nat.le_of_lt_succ hx
  have hle : cubeOffset (if z % 2 = 1 then 7 - x else x) y z ≤ 504 :=
    cubeOffset_le (reflect_le hx7 z) (Nat.le_of_lt_succ hy) (Nat.le_of_lt_succ hz)
  have hresult : (effect (.mapXyz x y z) s).result.toNat = cubeOffset (if z % 2 = 1 then 7 - x else x) y z := by
    rw [effect, State.setResult_result, voxelOffset_natCast hx7, toNat_u32_natCast (by omega)]
  exact ⟨_, exec_of_legal hlegal _, hresult ▸ hle, hresult⟩

end Sys2Proof.Machine

/-!
PROOFS. The framebuffer_engine (42_framebuffer_engine.md): the W bytes stay dark (R123), and what each of its commands
leaves, byte by byte.
-/

namespace Sys2Proof.Machine

/-! ### The opcodes -/

/-- An opcode selects the command that carries it and whose operands are the leading fields (30_encoding.md R60 to
R63). -/
theorem selects_of_operands {op : BitVec 8} {f : Int → Int → Int → Int → Instr}
    (h : ∀ a b c d, op = opcodeOf (f a b c d) ∧
      (f a b c d).operands = [a, b, c, d].take (f a b c d).operands.length) : Selects op f := by
  intro w hopc hrsv
  obtain ⟨hop, hoperands⟩ := h (fieldA w).toInt (fieldB w).toInt (fieldC w).toInt (fieldD w).toInt
  exact decode_eq_some_iff.2 ⟨hrsv, hopc.trans hop, hoperands⟩

/-! ### The W bytes (R123) -/

/-- The W byte of a pixel is an address `3 mod 4`. -/
theorem windowByte_white {s : State} (h : s.DarkWhite) (hst : s.cfg.stride = .rgbw) (k : Nat) :
    s.windowByte k 3 = 0#8 := by
  have hmod : (pixelAddr s.cfg k + 3) % s.cfg.stride.bytes = 3 := pixelAddr_mod _ _ (by rw [hst]; decide)
  rw [hst, Stride.bytes] at hmod
  exact h hst _ hmod

/-- Storing the window keeps the W bytes dark when what goes into channel 3 is dark. -/
theorem mapWindow_darkWhite {s : State} (h : s.DarkWhite) {f : Nat → Nat → Byte}
    (hf : s.cfg.stride = .rgbw → ∀ k, f k 3 = 0#8) : (s.mapWindow f).DarkWhite := by
  intro hst a ha
  rw [State.mapWindow_cfg] at hst
  have hmod : a % s.cfg.stride.bytes = 3 := by rwa [hst]
  rw [read_mapWindow]
  split
  next hwin => rw [channel_eq_mod hwin.1, hmod, hf hst]
  next => exact h hst a ha

/-- No colour write reaches a W byte: its row of the table ends at channel 2 (20_memory.md R40, R41). -/
theorem effect_darkWhite_of_colour {s : State} (h : s.DarkWhite) {i : Instr}
    (hi : ∀ a, WriteRange s.cfg a i → a % s.cfg.stride.bytes ≤ 2) : (effect i s).DarkWhite := by
  intro hst a ha
  rw [effect_cfg] at hst
  have hnot : ¬ WriteRange s.cfg a i := fun hrange => by
    have hcolour := hi a hrange
    rw [hst, Stride.bytes] at hcolour
    omega
  rw [read_effect_of_not_writeRange hnot, h hst a ha]

theorem mod_le_two_of_colour {c : Config} {o a : Nat} (hlo : pixelAddr c o ≤ a) (hhi : a ≤ pixelAddr c o + 2) :
    a % c.stride.bytes ≤ 2 := by
  obtain ⟨j, rfl⟩ := Nat.exists_eq_add_of_le hlo
  have hj : j ≤ 2 := by omega
  rwa [pixelAddr_mod c o (hj.trans_lt (three_le_stride _))]

theorem easeByte_zero (br : Nat) : easeByte br 0#8 = 0#8 := by simp [easeByte]

/-- Every command keeps the W bytes dark: the colour writes leave them alone, CLEAR stores 0, EASE scales them, and SHIFT
and ROTATE bring in another pixel's W byte or 0. -/
theorem effect_darkWhite {s : State} (h : s.DarkWhite) (i : Instr) : (effect i s).DarkWhite := by
  cases i with
  | pack | unpackR | unpackG | unpackB | hsl | mapXyz | setBright | length | power | getPix | flush => exact h
  | setPix | setXyz => exact effect_darkWhite_of_colour h fun a ⟨_, hlo, hhi⟩ => mod_le_two_of_colour hlo hhi
  | setAll | rainbow => exact effect_darkWhite_of_colour h fun a hrange => hrange.2
  | clear =>
    intro hst a ha
    simp only [effect, Memory.read_fill]
    split
    · rfl
    · exact h hst a ha
  | ease => exact mapWindow_darkWhite h fun hst k => by rw [windowByte_white h hst, easeByte_zero]
  | shift n =>
    refine mapWindow_darkWhite h fun hst k => ?_
    simp only [State.shiftedByte]
    split
    · exact windowByte_white h hst _
    · rfl
  | rotate n => exact mapWindow_darkWhite h fun hst k => windowByte_white h hst _

/-- Settles O6, event by event: a reset darkens every byte, an idle step and an illegal word store none, and every command
keeps the W bytes dark. -/
theorem everyStepKeepsTheWhiteChannelDark : Obligations.EveryStepKeepsTheWhiteChannelDark := by
  intro s t h hstep
  obtain ⟨-, ⟨-, rfl⟩ | ⟨rest, -, rfl⟩ | ⟨w, rest, i, -, -, rfl⟩ | ⟨w, rest, -, -, rfl⟩⟩ := step_cases hstep
  · exact h
  · exact fun _ a _ => Memory.read_nil a
  · exact effect_darkWhite (s := { s with input := rest }) h i
  · exact h

/-! ### SETPIX, SETXYZ, SETALL, CLEAR, SETBRIGHT -/

/-- A pixel write in the rules' integers (R110, R111). -/
theorem pixelWritten_writePixel (s : State) (o rgb : Int) : PixelWritten s (s.writePixel o rgb) o rgb := by
  intro a
  by_cases ho : InWindow s.cfg o
  · obtain ⟨k, rfl⟩ := Int.eq_ofNat_of_zero_le ho.1
    have hrange : (0 ≤ (k : Int) ∧ (k : Int) < s.cfg.length ∧ ((k : Int) + s.cfg.start) * s.cfg.stride.bytes ≤ a ∧
        (a : Int) ≤ ((k : Int) + s.cfg.start) * s.cfg.stride.bytes + 2) ↔
        pixelAddr s.cfg k ≤ a ∧ a ≤ pixelAddr s.cfg k + 2 := by
      unfold pixelAddr
      simp only [ho.1, ho.2, true_and]
      norm_cast
    rw [read_writePixel ho, channelByte_eq_dimmed]
    simp only [hrange]
    rfl
  · rw [writePixel_of_not_inWindow ho, if_neg fun ⟨h₀, h₁, _⟩ => ho ⟨h₀, h₁⟩]

/-- Settles O33: SETPIX's effect is one pixel write. -/
theorem setpixWritesOnePixel : Obligations.SetpixWritesOnePixel :=
  ⟨selects_of_operands fun _ _ _ _ => ⟨rfl, rfl⟩, fun o rgb s hlegal =>
    ⟨_, exec_of_legal hlegal _, sameButFb_writePixel s o rgb, pixelWritten_writePixel s o rgb⟩⟩

/-- Settles O34: SETXYZ's effect is one pixel write, at `voxelOffset`'s exact value. -/
theorem setxyzWritesTheMappedPixel : Obligations.SetxyzWritesTheMappedPixel :=
  ⟨selects_of_operands fun _ _ _ _ => ⟨rfl, rfl⟩, fun x y z rgb s hlegal =>
    ⟨_, exec_of_legal hlegal _, sameButFb_writePixel s _ rgb, pixelWritten_writePixel s (voxelOffset x y z) rgb⟩⟩

/-- Settles O35: SETALL paints the window in one colour. -/
theorem setallPaintsTheWindow : Obligations.SetallPaintsTheWindow :=
  ⟨selects_of_operands fun _ _ _ _ => ⟨rfl, rfl⟩, fun rgb s hlegal =>
    ⟨_, exec_of_legal hlegal _, sameButFb_mapWindow s _, read_paintWindow s fun _ => rgb⟩⟩

/-- CLEAR's literal range, by its two ends (R115). -/
theorem read_effect_clear (s : State) (a : Nat) :
    (effect .clear s).fb.read a =
      if windowBase s.cfg ≤ a ∧ a < windowBytes s.cfg then 0#8 else s.fb.read a := by
  have hrange : (windowBase s.cfg ≤ a ∧ a < windowBase s.cfg + (windowBytes s.cfg - windowBase s.cfg)) ↔
      windowBase s.cfg ≤ a ∧ a < windowBytes s.cfg := by omega
  simp only [effect, Memory.read_fill, hrange]

/-- Settles O36: CLEAR fills its literal range with 0x00. -/
theorem clearZeroesTheLiteralRange : Obligations.ClearZeroesTheLiteralRange :=
  ⟨selects_of_operands fun _ _ _ _ => ⟨rfl, rfl⟩, fun s hlegal =>
    ⟨_, exec_of_legal hlegal _, rfl, read_effect_clear s⟩⟩

/-- Settles O37: the stored byte is the low byte of the operand. -/
theorem setbrightStoresTheLowByte : Obligations.SetbrightStoresTheLowByte := by
  refine ⟨selects_of_operands fun _ _ _ _ => ⟨rfl, rfl⟩, fun b s hlegal => ?_⟩
  rw [exec_of_legal hlegal, effect, byteOf_eq, State.setBright]

/-! ### EASE -/

theorem easeFactor_eq (length k : Nat) :
    easeFactor length k =
      if length / 2 = 0 then 0
      else if k ≤ length / 2 then 255 * k ^ 2 / (length / 2) ^ 2
      else 255 * (length - 1 - k) ^ 2 / (length / 2) ^ 2 := by
  simp only [easeFactor, pow_two, Nat.mul_assoc]

/-- Settles O38: each window byte is scaled by its pixel's factor, the others are left alone. -/
theorem easeScalesEveryWindowByte : Obligations.EaseScalesEveryWindowByte := by
  refine ⟨selects_of_operands fun _ _ _ _ => ⟨rfl, rfl⟩, fun s hlegal =>
    ⟨_, exec_of_legal hlegal _, rfl, fun a => ?_⟩⟩
  split
  next hwin =>
    have hwin' := windowAddr_iff.1 hwin
    rw [effect, read_mapWindow, if_pos hwin', State.windowByte, pixelAddr_div_mod hwin'.1, pixel_eq_div hwin'.1,
      easeFactor_eq]
    rfl
  next hout => exact read_mapWindow_of_not_windowAddr hout _

/-! ### SHIFT -/

/-- A window byte by the address of R118 and R119. -/
theorem windowByte_eq_read (s : State) (k j : Nat) :
    s.windowByte k j = s.fb.read ((s.cfg.start + k) * s.cfg.stride.bytes + j) := by
  rw [State.windowByte, pixelAddr, Nat.add_comm k]
  rfl

theorem windowByte_shift (s : State) (n : Int) {k j : Nat} (hk : k < s.cfg.length) (hj : j < s.cfg.stride.bytes) :
    (effect (.shift n) s).windowByte k j =
      if InWindow s.cfg (k - n) then s.windowByte ((k : Int) - n).toNat j else 0#8 :=
  windowByte_mapWindow s (s.shiftedByte n) hk hj

/-- Settles O39, pixel by pixel. -/
theorem shiftMovesWholePixels : Obligations.ShiftMovesWholePixels := by
  refine ⟨selects_of_operands fun _ _ _ _ => ⟨rfl, rfl⟩, fun n s hlegal =>
    ⟨_, exec_of_legal hlegal _, rfl, fun k j hk hj => ?_, fun a hout => read_mapWindow_of_not_windowAddr hout _⟩⟩
  have hbyte := windowByte_shift s n hk hj
  rwa [windowByte_eq_read, windowByte_eq_read] at hbyte

/-- A pixel that the first shift keeps in the window is found again by the second; what the second brings in from outside
the window is zero. -/
theorem windowByte_shift_back (s : State) (n : Int) {k j : Nat} (hk : k < s.cfg.length)
    (hj : j < s.cfg.stride.bytes) :
    (effect (.shift (-n)) (effect (.shift n) s)).windowByte k j =
      if InWindow s.cfg (k + n) then s.windowByte k j else 0#8 := by
  rw [windowByte_shift (effect (.shift n) s) (-n) hk hj, sub_neg_eq_add, effect_cfg]
  split
  next hin =>
    obtain ⟨m, hm⟩ := Int.eq_ofNat_of_zero_le hin.1
    have hback : (m : Int) - n = k := by omega
    rw [hm, Int.toNat_natCast, windowByte_shift s n (by omega) hj, hback, Int.toNat_natCast, if_pos (by omega)]
  next => rfl

/-- Settles O40, pixel by pixel. -/
theorem shiftBackRestoresTheSurvivors : Obligations.ShiftBackRestoresTheSurvivors := by
  refine fun n s hlegal => ⟨_, _, exec_of_legal hlegal _, exec_of_legal (s := effect (.shift n) s) hlegal _, rfl,
    fun k j hk hj => ?_, fun a hout => ?_⟩
  · have hbyte := windowByte_shift_back s n hk hj
    rwa [windowByte_eq_read, windowByte_eq_read] at hbyte
  · exact (read_mapWindow_of_not_windowAddr (s := effect (.shift n) s) hout _).trans
      (read_mapWindow_of_not_windowAddr hout _)

/-! ### ROTATE -/

theorem windowByte_rotate (s : State) (n : Int) {k j : Nat} (hk : k < s.cfg.length) (hj : j < s.cfg.stride.bytes) :
    (effect (.rotate n) s).windowByte k j = s.windowByte (((k : Int) - n) % s.cfg.length).toNat j :=
  windowByte_mapWindow s (s.rotatedByte n) hk hj

/-- Settles O41, pixel by pixel. -/
theorem rotateMovesWholePixels : Obligations.RotateMovesWholePixels := by
  refine ⟨selects_of_operands fun _ _ _ _ => ⟨rfl, rfl⟩, fun n s hlegal =>
    ⟨_, exec_of_legal hlegal _, rfl, fun k j hk hj => ?_, fun a hout => read_mapWindow_of_not_windowAddr hout _⟩⟩
  have hbyte := windowByte_rotate s n hk hj
  rwa [windowByte_eq_read, windowByte_eq_read] at hbyte

/-- Good states that differ in the frame buffer only and read alike are the same state. -/
theorem eq_of_read {s t : State} (hs : s.Inv) (ht : t.Inv) (hsame : SameButFb s t)
    (hread : ∀ a, t.fb.read a = s.fb.read a) : t = s := by
  rw [hsame, Memory.ext_read ht.canonical hs.canonical hread]

/-- Storing what the window holds already changes nothing. -/
theorem mapWindow_eq_self {s : State} (h : s.Inv) {f : Nat → Nat → Byte}
    (hf : ∀ k j, k < s.cfg.length → j < s.cfg.stride.bytes → f k j = s.windowByte k j) : s.mapWindow f = s := by
  refine eq_of_read h (mapWindow_inv h f) rfl fun a => ?_
  rw [read_mapWindow]
  split
  next hwin =>
    rw [hf _ _ (pixel_lt_length hwin.1 hwin.2) (Nat.mod_lt _ (stride_pos _)), State.windowByte,
      pixelAddr_div_mod hwin.1]
    rfl
  next => rfl

/-- The window stored twice holds what was stored last. -/
theorem mapWindow_mapWindow {s : State} (h : s.Inv) (f g : Nat → Nat → Byte) :
    (s.mapWindow f).mapWindow g = s.mapWindow g := by
  refine eq_of_read (mapWindow_inv h g) (mapWindow_inv (mapWindow_inv h f) g) rfl fun a => ?_
  simp only [read_mapWindow, State.mapWindow_cfg]
  split <;> rfl

/-- Turning pixel `k` of a window of `length` pixels back and forth ends at `k`. -/
theorem rotate_source {length k : Nat} (hk : k < length) (n : Int) :
    (((k : Int) + n) % length - n) % length = k := by
  rw [Int.emod_sub_emod, add_sub_cancel_right, Int.emod_eq_of_lt (by omega) (by omega)]

theorem rotate_back {s : State} (h : s.Inv) (n : Int) : effect (.rotate (-n)) (effect (.rotate n) s) = s := by
  refine (mapWindow_mapWindow h _ _).trans (mapWindow_eq_self h fun k j hk hj => ?_)
  have hlength : (0 : Int) < s.cfg.length := by omega
  obtain ⟨m, hm⟩ := Int.eq_ofNat_of_zero_le (Int.emod_nonneg ((k : Int) + n) hlength.ne')
  have hlt := Int.emod_lt_of_pos ((k : Int) + n) hlength
  have hback : ((m : Int) - n) % s.cfg.length = k := by rw [← hm, rotate_source hk]
  rw [State.rotatedByte, effect_cfg, sub_neg_eq_add, hm, Int.toNat_natCast,
    windowByte_rotate s n (by omega) hj, hback, Int.toNat_natCast]

theorem rotate_multiple {s : State} (h : s.Inv) (m : Int) : effect (.rotate (m * s.cfg.length)) s = s := by
  refine mapWindow_eq_self h fun k j hk _ => ?_
  rw [State.rotatedByte, Int.sub_mul_emod_self_right, Int.emod_eq_of_lt (by omega) (by omega), Int.toNat_natCast]

/-- Settles O42: both rotates store each window byte where it was. -/
theorem rotateBackIsTheIdentity : Obligations.RotateBackIsTheIdentity := by
  refine fun n m s h => ⟨⟨_, exec_of_legal h.legal _, ?_⟩, ?_⟩
  · rw [exec_of_legal (s := effect (.rotate n) s) h.legal, rotate_back h]
  · rw [exec_of_legal h.legal, rotate_multiple h]

/-! ### LENGTH and POWER -/

/-- Settles O43: at most 512 pixels fit RESULT. -/
theorem lengthReturnsThePixelCount : Obligations.LengthReturnsThePixelCount := by
  refine ⟨selects_of_operands fun _ _ _ _ => ⟨rfl, rfl⟩, fun s hlegal => ⟨_, exec_of_legal hlegal _, rfl, ?_⟩⟩
  have hcap : s.cfg.start + s.cfg.length ≤ 512 := hlegal
  exact toNat_u32_natCast (by omega)

/-- The sum of R121 over the window's addresses as a set. -/
theorem windowSum_eq (s : State) :
    s.windowSum = ∑ a ∈ Finset.Ico (windowBase s.cfg) (windowBase s.cfg + windowBytes s.cfg), (s.fb.read a).toNat := by
  rw [State.windowSum, ← List.sum_toFinset _ (List.nodup_range'), List.toFinset_range'_1]
  rfl

/-- Every byte is at most 255 and the window has at most 2048 bytes. -/
theorem windowSum_le {s : State} (h : s.cfg.Legal) : s.windowSum ≤ 522240 := by
  have hcap : s.cfg.start + s.cfg.length ≤ 512 := h
  have hbytes : windowBytes s.cfg ≤ 512 * 4 :=
    Nat.mul_le_mul (by omega) (by cases s.cfg.stride <;> decide)
  have hsum := Finset.sum_le_card_nsmul (Finset.Ico (windowBase s.cfg) (windowBase s.cfg + windowBytes s.cfg))
    (fun a => (s.fb.read a).toNat) 255 fun a _ => Nat.le_of_lt_succ (s.fb.read a).isLt
  rw [← windowSum_eq, Nat.card_Ico, smul_eq_mul] at hsum
  omega

/-- POWER's value fits RESULT. -/
theorem toNat_result_power {s : State} (h : s.cfg.Legal) :
    (effect .power s).result.toNat = s.cfg.length / 2 + s.windowSum * 433 / 10000 := by
  have hcap : s.cfg.start + s.cfg.length ≤ 512 := h
  have hsum := windowSum_le h
  exact toNat_u32_natCast (by omega)

/-- Settles O44: RESULT holds the two terms, the lit one over the window's addresses. -/
theorem powerEstimatesTheCurrent : Obligations.PowerEstimatesTheCurrent := by
  refine ⟨selects_of_operands fun _ _ _ _ => ⟨rfl, rfl⟩, fun s hlegal => ⟨_, exec_of_legal hlegal _, rfl, ?_⟩⟩
  rw [toNat_result_power hlegal, windowSum_eq, Nat.add_mul]
  rfl

/-- With `START = 0` the range of CLEAR is the window. -/
theorem windowSum_clear {s : State} (h : s.cfg.start = 0) : (effect .clear s).windowSum = 0 := by
  rw [windowSum_eq, effect_cfg]
  refine Finset.sum_eq_zero fun a ha => ?_
  have hbase : windowBase s.cfg = 0 := by rw [windowBase, h, Nat.zero_mul]
  rw [hbase, Nat.zero_add, Finset.mem_Ico] at ha
  rw [read_effect_clear, hbase, if_pos ha]
  rfl

/-- Settles O45: the cleared window adds nothing to the idle term. -/
theorem powerAfterClearIsTheIdleDraw : Obligations.PowerAfterClearIsTheIdleDraw := by
  refine fun s hlegal hstart =>
    ⟨_, _, exec_of_legal hlegal _, exec_of_legal (s := effect .clear s) hlegal _, ?_⟩
  rw [toNat_result_power (s := effect .clear s) hlegal, windowSum_clear hstart, effect_cfg, Nat.zero_mul, Nat.zero_div,
    Nat.add_zero]

/-! ### GETPIX -/

/-- RESULT after GETPIX, by the stored bytes (R122, 30_encoding.md R69). -/
theorem u32_pack_bytes (r g b : Byte) : u32 (pack r.toNat g.toNat b.toNat) = rgbWord r g b := by
  simp only [u32_pack, BitVec.ofInt_natCast, BitVec.ofNat_toNat, BitVec.setWidth_eq]

/-- Settles O46: GETPIX packs the three stored bytes. -/
theorem getpixReturnsTheStoredBytes : Obligations.GetpixReturnsTheStoredBytes := by
  refine ⟨selects_of_operands fun _ _ _ _ => ⟨rfl, rfl⟩, fun o s hlegal => ?_⟩
  rw [exec_of_legal hlegal, effect, State.setResult, apply_ite u32, u32_pack_bytes]
  rfl

/-- Window byte by window byte, what an admitted pixel write leaves at its pixel. -/
theorem windowByte_writePixel {s : State} {o : Int} (h : InWindow s.cfg o) (rgb : Int) {j : Nat} (hj : j < 3) :
    (s.writePixel o rgb).windowByte o.toNat j = channelByte s.bright rgb j := by
  rw [State.windowByte, State.memRead, State.writePixel_cfg, read_writePixel h, if_pos (by omega),
    Nat.add_sub_cancel_left]

/-- At brightness 255 a colour write stores the channel itself (R110). -/
theorem toNat_byteOf_scale_full (v : Int) : ((byteOf (scale 255#8 (u8 v))).toNat : Int) = u8 v := by
  rw [scale, if_pos rfl, byteOf_eq, toNat_ofInt_byte, u8, u8, Int.emod_emod]

/-- Settles O47: the three channels written are read back and packed, which gives the colour modulo `2^24`. -/
theorem getpixAfterSetpixAtFullBrightness : Obligations.GetpixAfterSetpixAtFullBrightness := by
  intro o rgb s hlegal hbright ho₀ ho₁
  have ho : InWindow s.cfg o := ⟨ho₀, ho₁⟩
  refine ⟨_, _, exec_of_legal hlegal _, exec_of_legal (by rwa [effect_cfg]) _, ?_⟩
  have hr : ((channelByte 255#8 rgb 0).toNat : Int) = unpackR rgb := toNat_byteOf_scale_full _
  have hg : ((channelByte 255#8 rgb 1).toNat : Int) = unpackG rgb := toNat_byteOf_scale_full _
  have hb : ((channelByte 255#8 rgb 2).toNat : Int) = unpackB rgb := toNat_byteOf_scale_full _
  simp only [effect, State.setResult_result, State.writePixel_cfg, if_pos ho, windowByte_writePixel ho, hbright, hr, hg,
    hb, pack_unpack, u32_emod_eq_mask, Nat.reduceLT]

end Sys2Proof.Machine

/-!
PROOFS. The loops of the rules (Machine/Loops.lean): storing one byte or one pixel after another leaves what one store of
the whole range leaves (log entry 4).
-/

namespace Sys2Proof.Machine

/-! ### Loops over a range -/

/-- A loop whose pass `i` takes `F i` to `F (i + 1)` takes `F 0` to `F n`. -/
theorem foldl_range_eq {σ : Type} {F : Nat → σ} {g : σ → Nat → σ} {n : Nat} (h : ∀ i, i < n → g (F i) i = F (i + 1)) :
    (List.range n).foldl g (F 0) = F n := by
  induction n with
  | zero => rfl
  | succ n ih =>
    rw [List.range_succ, List.foldl_append, ih fun i hi => h i (by omega)]
    exact h n (by omega)

namespace Memory

theorem fill_zero {m : Memory} (hm : m.wf) (lo : Nat) (f : Nat → Byte) : m.fill lo 0 f = m := by
  refine ext_read (wf_fill hm _ _ _) hm fun a => ?_
  rw [read_fill, if_neg (by omega)]

/-- A fill grows by the byte after its range. -/
theorem write_fill {m : Memory} (hm : m.wf) (lo n : Nat) (f : Nat → Byte) :
    (m.fill lo n f).write (lo + n) (f (lo + n)) = m.fill lo (n + 1) f := by
  refine ext_read (wf_write (wf_fill hm _ _ _) _ _) (wf_fill hm _ _ _) fun a => ?_
  simp only [read_write, read_fill]
  by_cases ha : a = lo + n
  · rw [ha, if_pos rfl, if_pos (by omega)]
  · have hrange : (lo ≤ a ∧ a < lo + (n + 1)) ↔ lo ≤ a ∧ a < lo + n := by omega
    simp only [if_neg ha, hrange]

end Memory

/-! ### CLEAR -/

theorem effect_clear_eq_loop {s : State} (h : s.fb.wf) : effect .clear s = clearLoop s := by
  have hloop := foldl_range_eq (F := fun n => { s with fb := s.fb.fill (windowBase s.cfg) n fun _ => 0#8 })
    (g := fun t i => t.memWrite (windowBase s.cfg + i) 0#8) (n := windowBytes s.cfg - windowBase s.cfg)
    fun i _ => congrArg (fun fb => { s with fb := fb }) (Memory.write_fill h (windowBase s.cfg) i _)
  rw [Memory.fill_zero h] at hloop
  rw [clearLoop, List.range'_eq_map_range, List.foldl_map]
  exact hloop.symm

/-! ### Loops over the window -/

/-- The window stored up to its first `n` bytes: channel `j` of window pixel `k` holds `f k j`. -/
def State.fillWindow (s : State) (f : Nat → Nat → Byte) (n : Nat) : State :=
  { s with fb := s.fb.fill (windowBase s.cfg) n (fun a =>
      f ((a - windowBase s.cfg) / s.cfg.stride.bytes) ((a - windowBase s.cfg) % s.cfg.stride.bytes)) }

theorem fillWindow_zero {s : State} (h : s.fb.wf) (f : Nat → Nat → Byte) : s.fillWindow f 0 = s := by
  rw [State.fillWindow, Memory.fill_zero h]

theorem fillWindow_windowBytes (s : State) (f : Nat → Nat → Byte) :
    s.fillWindow f (s.cfg.length * s.cfg.stride.bytes) = s.mapWindow f := rfl

/-- The pixel of the window's byte `i * STRIDE + j`; its channel is `Nat.mul_add_mod_of_lt`. -/
theorem pixel_of_offset {c : Config} (i : Nat) {j : Nat} (hj : j < c.stride.bytes) :
    (i * c.stride.bytes + j) / c.stride.bytes = i := by
  rw [Nat.mul_comm, Nat.mul_add_div (stride_pos _), Nat.div_eq_of_lt hj, Nat.add_zero]

/-- Storing the next byte of the window, channel `j` of pixel `i`. -/
theorem memWrite_fillWindow {s : State} (h : s.fb.wf) (f : Nat → Nat → Byte) (i : Nat) {j : Nat}
    (hj : j < s.cfg.stride.bytes) :
    (s.fillWindow f (i * s.cfg.stride.bytes + j)).memWrite ((s.cfg.start + i) * s.cfg.stride.bytes + j) (f i j) =
      s.fillWindow f (i * s.cfg.stride.bytes + (j + 1)) := by
  have haddr : (s.cfg.start + i) * s.cfg.stride.bytes + j = windowBase s.cfg + (i * s.cfg.stride.bytes + j) := by
    rw [windowBase]; ring
  have hstore := Memory.write_fill h (windowBase s.cfg) (i * s.cfg.stride.bytes + j) fun a =>
    f ((a - windowBase s.cfg) / s.cfg.stride.bytes) ((a - windowBase s.cfg) % s.cfg.stride.bytes)
  simp only [Nat.add_sub_cancel_left, pixel_of_offset i hj, Nat.mul_add_mod_of_lt hj] at hstore
  rw [haddr]
  exact congrArg (fun fb => { s with fb := fb }) hstore

/-- A loop that stores `f i j` as byte `j` of pixel `i` stores the window. -/
theorem forWindow_eq_mapWindow {s : State} (h : s.fb.wf) {f : Nat → Nat → Byte} {body : State → Nat → Nat → State}
    (hbody : ∀ i j, j < s.cfg.stride.bytes → body (s.fillWindow f (i * s.cfg.stride.bytes + j)) i j =
      (s.fillWindow f (i * s.cfg.stride.bytes + j)).memWrite ((s.cfg.start + i) * s.cfg.stride.bytes + j) (f i j)) :
    forWindow s body = s.mapWindow f := by
  have hpixel : ∀ i, i < s.cfg.length →
      (List.range s.cfg.stride.bytes).foldl (fun u j => body u i j) (s.fillWindow f (i * s.cfg.stride.bytes)) =
        s.fillWindow f ((i + 1) * s.cfg.stride.bytes) := fun i _ => by
    rw [Nat.succ_mul]
    exact foldl_range_eq (F := fun j => s.fillWindow f (i * s.cfg.stride.bytes + j)) fun j hj =>
      (hbody i j hj).trans (memWrite_fillWindow h f i hj)
  have hloop := foldl_range_eq (F := fun i => s.fillWindow f (i * s.cfg.stride.bytes))
    (g := fun t i => (List.range s.cfg.stride.bytes).foldl (fun u j => body u i j) t) hpixel
  simp only [Nat.zero_mul, fillWindow_zero h, fillWindow_windowBytes] at hloop
  exact hloop

/-! ### EASE, SHIFT, ROTATE -/

/-- EASE reads each byte from the state its loop has reached, where that byte is still the old one. -/
theorem effect_ease_eq_loop {s : State} (h : s.fb.wf) : effect .ease s = easeLoop s := by
  rw [effect, easeLoop]
  refine (forWindow_eq_mapWindow h fun i j _ => ?_).symm
  have hunread : (s.fillWindow (fun k j => easeByte (easeFactor s.cfg.length k) (s.windowByte k j))
      (i * s.cfg.stride.bytes + j)).memRead ((s.cfg.start + i) * s.cfg.stride.bytes + j) = s.windowByte i j := by
    rw [windowByte_eq_read, State.memRead, State.fillWindow, Memory.read_fill, if_neg]
    rw [windowBase, Nat.add_mul]
    omega
  rw [hunread]

theorem effect_shift_eq_loop {s : State} (h : s.fb.wf) (n : Int) : effect (.shift n) s = shiftLoop n s := by
  rw [effect, shiftLoop]
  refine (forWindow_eq_mapWindow h fun i j _ => ?_).symm
  simp only [State.shiftedByte, windowByte_eq_read]
  rfl

/-- The loop of ROTATE tests for the empty window, whose store is empty. -/
theorem effect_rotate_eq_loop {s : State} (h : s.fb.wf) (n : Int) : effect (.rotate n) s = rotateLoop n s := by
  rw [rotateLoop]
  split
  next hempty =>
    rw [effect, ← fillWindow_windowBytes, hempty, Nat.zero_mul, fillWindow_zero h]
  next =>
    refine (forWindow_eq_mapWindow h fun i j _ => ?_).symm
    rw [State.rotatedByte, windowByte_eq_read]
    rfl

/-- Settles O53, loop by loop. -/
theorem transformsMatchTheirLoops : Obligations.TransformsMatchTheirLoops := by
  intro s h
  simp only [exec_of_legal h.legal]
  exact ⟨congrArg _ (effect_ease_eq_loop h.canonical), fun n => congrArg _ (effect_shift_eq_loop h.canonical n),
    fun n => congrArg _ (effect_rotate_eq_loop h.canonical n)⟩

/-! ### SETALL and RAINBOW -/

/-- The loop that writes `colour k` to each window pixel `k`. -/
def paintLoop (colour : Nat → Int) (s : State) : State :=
  (List.range s.cfg.length).foldl (fun t (k : Nat) => t.writePixel k (colour k)) s

/-- The window painted up to its pixel `n`. -/
def State.fillPixels (s : State) (colour : Nat → Int) (n : Nat) : State :=
  s.fillWindow (fun k j => s.paintedByte (colour k) k j) (n * s.cfg.stride.bytes)

/-- Byte by byte, what painting up to pixel `n` leaves. -/
theorem read_fillPixels (s : State) (colour : Nat → Int) (n a : Nat) :
    (s.fillPixels colour n).fb.read a =
      if windowBase s.cfg ≤ a ∧ a < pixelAddr s.cfg n then
        s.paintedByte (colour ((a - windowBase s.cfg) / s.cfg.stride.bytes))
          ((a - windowBase s.cfg) / s.cfg.stride.bytes) ((a - windowBase s.cfg) % s.cfg.stride.bytes)
      else s.fb.read a := by
  rw [pixelAddr_eq]
  exact Memory.read_fill _ _ _ _ _

/-- The bytes of pixel `i`, painted when the loop has passed it. -/
theorem read_fillPixels_succ_pixel (s : State) (colour : Nat → Int) (i : Nat) {j : Nat} (hj : j < s.cfg.stride.bytes) :
    (s.fillPixels colour (i + 1)).fb.read (pixelAddr s.cfg i + j) = s.paintedByte (colour i) i j := by
  have hoffset : pixelAddr s.cfg i + j - windowBase s.cfg = i * s.cfg.stride.bytes + j := by
    rw [pixelAddr_eq]; omega
  have hin : windowBase s.cfg ≤ pixelAddr s.cfg i + j ∧ pixelAddr s.cfg i + j < pixelAddr s.cfg (i + 1) := by
    rw [pixelAddr_eq, pixelAddr_eq, Nat.succ_mul]; omega
  rw [read_fillPixels, if_pos hin, hoffset, pixel_of_offset i hj, Nat.mul_add_mod_of_lt hj]

/-- Every other byte is the same before and after the pass of pixel `i`. -/
theorem read_fillPixels_succ_other (s : State) (colour : Nat → Int) {i a : Nat}
    (h : ¬ (pixelAddr s.cfg i ≤ a ∧ a < pixelAddr s.cfg i + s.cfg.stride.bytes)) :
    (s.fillPixels colour (i + 1)).fb.read a = (s.fillPixels colour i).fb.read a := by
  have hnext : pixelAddr s.cfg (i + 1) = pixelAddr s.cfg i + s.cfg.stride.bytes := by
    rw [pixelAddr_eq, pixelAddr_eq, Nat.succ_mul, Nat.add_assoc]
  have hrange : (windowBase s.cfg ≤ a ∧ a < pixelAddr s.cfg (i + 1)) ↔
      windowBase s.cfg ≤ a ∧ a < pixelAddr s.cfg i := by omega
  simp only [read_fillPixels, hrange]

/-- Painting the next pixel of the window: the colour write stores three bytes and leaves the W byte as it was (R111). -/
theorem writePixel_fillPixels {s : State} (h : s.Inv) (colour : Nat → Int) {i : Nat} (hi : i < s.cfg.length) :
    (s.fillPixels colour i).writePixel i (colour i) = s.fillPixels colour (i + 1) := by
  have hinv : ∀ n, n ≤ s.cfg.length → (s.fillPixels colour n).Inv := fun n hn =>
    fill_inv h ((Nat.add_le_add_left (Nat.mul_le_mul_right _ hn) _).trans (window_le_size h.legal)) _
  have hin : InWindow (s.fillPixels colour i).cfg i := ⟨by omega, Int.ofNat_lt.2 hi⟩
  have hthree := three_le_stride s.cfg.stride
  refine eq_of_read (hinv _ hi) (writePixel_inv (hinv i hi.le) _ _)
    (sameButFb_writePixel (s.fillPixels colour i) i (colour i)) fun a => ?_
  have hwrite : ((s.fillPixels colour i).writePixel i (colour i)).fb.read a =
      if pixelAddr s.cfg i ≤ a ∧ a ≤ pixelAddr s.cfg i + 2 then
        channelByte s.bright (colour i) (a - pixelAddr s.cfg i)
      else (s.fillPixels colour i).fb.read a := read_writePixel hin _ a
  rw [hwrite]
  by_cases hpixel : pixelAddr s.cfg i ≤ a ∧ a < pixelAddr s.cfg i + s.cfg.stride.bytes
  · obtain ⟨j, rfl⟩ := Nat.exists_eq_add_of_le hpixel.1
    have hold : (s.fillPixels colour i).fb.read (pixelAddr s.cfg i + j) = s.windowByte i j := by
      rw [read_fillPixels, if_neg (by omega)]
      rfl
    have hcolour : (pixelAddr s.cfg i ≤ pixelAddr s.cfg i + j ∧ pixelAddr s.cfg i + j ≤ pixelAddr s.cfg i + 2) ↔
        j < 3 := by omega
    rw [read_fillPixels_succ_pixel s colour i (by omega), State.paintedByte, hold, Nat.add_sub_cancel_left]
    simp only [hcolour]
  · rw [if_neg (by omega), read_fillPixels_succ_other s colour hpixel]

/-- Painting the window pixel by pixel. -/
theorem mapWindow_eq_paintLoop {s : State} (h : s.Inv) (colour : Nat → Int) :
    (s.mapWindow fun k j => s.paintedByte (colour k) k j) = paintLoop colour s := by
  have hloop := foldl_range_eq (F := s.fillPixels colour) (g := fun t (k : Nat) => t.writePixel k (colour k)) fun i hi =>
    writePixel_fillPixels h colour hi
  simp only [State.fillPixels, Nat.zero_mul, fillWindow_zero h.canonical, fillWindow_windowBytes] at hloop
  exact hloop.symm

theorem setAllLoop_eq (rgb : Int) (s : State) : setAllLoop rgb s = paintLoop (fun _ => rgb) s := by
  rw [setAllLoop, bind_pure_comp, List.map_eq_map, List.foldl_map, paintLoop]

/-- The loop of RAINBOW treats the first and the last pixel apart (R131). -/
theorem paintLoop_ends (colour : Nat → Int) {s : State} {n : Nat} (h : s.cfg.length = n + 2) :
    paintLoop colour s =
      ((List.range' 1 n).foldl (fun t (k : Nat) => t.writePixel k (colour k)) (s.writePixel 0 (colour 0))).writePixel
        ((n + 1 : Nat) : Int) (colour (n + 1)) := by
  rw [paintLoop, h, List.range_succ, List.foldl_append, List.range_eq_range', List.range'_succ, List.foldl_cons]
  rfl

theorem rainbowLoop_eq (a b : Int) (s : State) :
    rainbowLoop a b s =
      if s.cfg.length = 0 then s else (paintLoop (rainbowColour a b s.cfg.length) s).flushed := by
  rw [rainbowLoop]
  dsimp only
  match hn : s.cfg.length with
  | 0 => rfl
  | 1 =>
    rw [paintLoop, hn]
    rfl
  | n + 2 =>
    have hlast : rainbowColour a b (n + 2) (n + 1) = hsl (b % 360) 100 50 := by simp [rainbowColour, rainbowHue]
    have hinner : ∀ (t : State), ∀ i ∈ List.range' 1 n,
        t.writePixel i (hsl ((a % 360 * 100 + i * ((b % 360 - a % 360) % 360 * 100 / (n + 2 : Nat))) / 100) 100 50) =
          t.writePixel i (rainbowColour a b (n + 2) i) := fun t i hi => by
      obtain ⟨hlo, hhi⟩ := List.mem_range'_1.1 hi
      rw [rainbowColour, rainbowHue, if_neg (by omega), if_neg (by omega), if_neg (by omega)]
      rfl
    rw [paintLoop_ends _ hn, if_neg (by omega), if_neg (by omega), if_neg (by omega), hlast, Nat.add_sub_cancel,
      List.foldl_ext _ _ _ hinner]
    rfl

/-- Settles O52, loop by loop. -/
theorem fillsMatchTheirLoops : Obligations.FillsMatchTheirLoops := by
  intro s h
  simp only [exec_of_legal h.legal]
  refine ⟨fun rgb => congrArg _ ?_, congrArg _ (effect_clear_eq_loop h.canonical), fun a b => congrArg _ ?_⟩
  · rw [setAllLoop_eq]
    exact mapWindow_eq_paintLoop h fun _ => rgb
  · rw [rainbowLoop_eq, ← mapWindow_eq_paintLoop h, effect]

end Sys2Proof.Machine

/-!
PROOFS. The rainbow_fill_unit (43_rainbow_fill_unit.md): the hues of a window (R130), and what RAINBOW paints and sends
(R131).
-/

namespace Sys2Proof.Machine

/-! ### The hues -/

section
variable (startHue endHue : Int) {steps : Nat}

theorem hueDistance_nonneg : 0 ≤ hueDistance .clockwise startHue endHue := Int.emod_nonneg _ (by decide)

theorem hueStep_nonneg : 0 ≤ hueStep startHue endHue steps :=
  Int.ediv_nonneg (mul_nonneg (hueDistance_nonneg startHue endHue) (by decide)) (Int.natCast_nonneg steps)

/-- The floor of the hue step never overshoots: all the steps together stay within the distance. -/
theorem mul_hueStep_le (hsteps : 0 < steps) :
    steps * hueStep startHue endHue steps ≤ hueDistance .clockwise startHue endHue * 100 :=
  Int.mul_ediv_self_le (by omega)

/-- Every pixel but the last has the interpolated hue, the first one too. -/
theorem rainbowHue_of_not_last {i : Nat} (hi : i + 2 ≤ steps) :
    rainbowHue startHue endHue steps i = (startHue % 360 * 100 + i * hueStep startHue endHue steps) / 100 := by
  rw [rainbowHue, if_neg (by omega)]
  split
  next hfirst =>
    rw [hfirst, Int.natCast_zero, zero_mul, add_zero, Int.mul_ediv_cancel _ (by decide)]
  next => rw [if_neg (by omega)]

theorem rainbowHue_last (hsteps : 2 ≤ steps) : rainbowHue startHue endHue steps (steps - 1) = endHue % 360 := by
  rw [rainbowHue, if_neg (by omega), if_neg (by omega), if_pos rfl]

end

/-- Settles O50: the hue step is not negative, and the steps together stay within the distance. -/
theorem rainbowHuesNeverDecrease : Obligations.RainbowHuesNeverDecrease := by
  intro startHue endHue steps i hsteps hi
  have hstep : 0 ≤ hueStep startHue endHue steps := hueStep_nonneg startHue endHue
  constructor
  · rw [rainbowHue_of_not_last startHue endHue hi]
    split
    next => -- the next pixel is the last
      have hsum : i * hueStep startHue endHue steps ≤ (endHue % 360 - startHue % 360) % 360 * 100 :=
        (mul_le_mul_of_nonneg_right (by omega) hstep).trans (mul_hueStep_le startHue endHue (by omega))
      omega
    next =>
      rw [rainbowHue_of_not_last startHue endHue (by omega)]
      refine Int.ediv_le_ediv (by decide) (add_le_add_right (mul_le_mul_of_nonneg_right ?_ hstep) _)
      omega
  · rw [rainbowHue_last startHue endHue hsteps]
    omega

/-! ### The colours -/

/-- A byte of an integer is the byte of its low eight bits. -/
theorem ofInt_u8 (v : Int) : BitVec.ofInt 8 (u8 v) = BitVec.ofInt 8 v := byteOf_eq v

theorem unpackR_pack (r g b : Int) : unpackR (pack r g b) = u8 r := by
  simp only [unpackR, pack, u8]
  omega

theorem unpackG_pack (r g b : Int) : unpackG (pack r g b) = u8 g := by
  simp only [unpackG, pack, u8]
  omega

theorem unpackB_pack (r g b : Int) : unpackB (pack r g b) = u8 b := by
  simp only [unpackB, pack, u8]
  omega

/-- The channels of a packed colour are the low bytes of what was packed (R80). -/
theorem channelOf_pack (r g b : Int) :
    ∀ j, channelOf (pack r g b) j = BitVec.ofInt 8 (if j = 0 then r else if j = 1 then g else b)
  | 0     => by rw [channelOf_red, ← ofInt_u8, ← unpackR, unpackR_pack, ofInt_u8, if_pos rfl]
  | 1     => by rw [channelOf_green, ← ofInt_u8, ← unpackG, unpackG_pack, ofInt_u8]; rfl
  | j + 2 => by rw [channelOf_blue, ← ofInt_u8, ← unpackB, unpackB_pack, ofInt_u8]; rfl

/-- Saturation 100 acts as 99 (R83). -/
theorem channelOf_rainbowColour (startHue endHue : Int) (steps k j : Nat) :
    channelOf (rainbowColour startHue endHue steps k) j =
      let q := hslChannels (rainbowHue startHue endHue steps k % 360) 99 50
      BitVec.ofInt 8 (if j = 0 then q.1 else if j = 1 then q.2.1 else q.2.2) := by
  rw [rainbowColour, hsl_eq_pack]
  exact channelOf_pack _ _ _ _

/-- The hue of a pixel, with the last one named as the one before the window's end (R130, R131). -/
theorem rainbowHue_eq (startHue endHue : Int) {steps : Nat} (hsteps : 0 < steps) (k : Nat) :
    rainbowHue startHue endHue steps k =
      let hs := startHue % 360
      let he := endHue % 360
      let hStep := (he - hs) % 360 * 100 / (steps : Int)
      if steps = 1 then hs + hStep else if k = 0 then hs else if k + 1 = steps then he
      else (hs * 100 + k * hStep) / 100 := by
  have hlast : k = steps - 1 ↔ k + 1 = steps := by omega
  simp only [rainbowHue, hlast]
  rfl

/-! ### RAINBOW -/

theorem effect_rainbow_of_empty {s : State} (h : s.cfg.length = 0) (startHue endHue : Int) :
    effect (.rainbow startHue endHue) s = s := if_pos h

theorem effect_rainbow_of_pos {s : State} (h : 0 < s.cfg.length) (startHue endHue : Int) :
    effect (.rainbow startHue endHue) s =
      (s.mapWindow fun k j => s.paintedByte (rainbowColour startHue endHue s.cfg.length k) k j).flushed :=
  if_neg h.ne'

/-- Settles O49: the flush comes last, so its frame is the painted buffer. -/
theorem rainbowPaintsTheGradientAndFlushes : Obligations.RainbowPaintsTheGradientAndFlushes := by
  refine ⟨selects_of_operands fun _ _ _ _ => ⟨rfl, rfl⟩, fun startHue endHue s hlegal =>
    ⟨fun hempty => ?_, fun hpos => ?_⟩⟩
  · rw [exec_of_legal hlegal, effect_rainbow_of_empty hempty]
  · rw [exec_of_legal hlegal, effect_rainbow_of_pos hpos]
    refine ⟨_, _, rfl, frame_isFrameOf _, rfl, fun a => ?_⟩
    rw [State.flushed_fb, read_paintWindow s (rainbowColour startHue endHue s.cfg.length)]
    simp only [channelOf_rainbowColour, rainbowHue_eq startHue endHue hpos]

end Sys2Proof.Machine

/-!
PROOFS. The device flush (44_device_flush.md): the one frame that FLUSH sends (R140, R141).
-/

namespace Sys2Proof.Machine

/-- Settles O48: what FLUSH emits is `State.frame`, which is the frame of its state. -/
theorem flushSendsTheBackingBuffer : Obligations.FlushSendsTheBackingBuffer :=
  ⟨selects_of_operands fun _ _ _ _ => ⟨rfl, rfl⟩, fun s hlegal =>
    ⟨s.frame, frame_isFrameOf s, exec_of_legal hlegal .flush⟩⟩

end Sys2Proof.Machine

/-!
PROOFS. Exceptions (60_exceptions.md): an illegal word only sets `ERR` (R151), no later command notices it (R155), no
legal command stops or reports an error (R150), and an idle block holds its state (R157).
-/

namespace Sys2Proof.Machine

/-- Settles O9. -/
theorem idleBlockHoldsItsState : Obligations.IdleBlockHoldsItsState :=
  fun s hlegal hidle => (step_of_idle hidle).trans (finish_of_legal hlegal s)

/-- Settles O10: the state a command completes with has the old `ERR`, which the output mirrors. -/
theorem noLegalCommandStopsOrReports : Obligations.NoLegalCommandStopsOrReports :=
  fun i s hlegal => ⟨effect i s, exec_of_legal hlegal i, effect_err i s, effect_err i s⟩

theorem writePixel_setErr (s : State) (o rgb : Int) : s.setErr.writePixel o rgb = (s.writePixel o rgb).setErr := by
  rw [State.writePixel, State.writePixel, apply_ite State.setErr]; rfl

/-- No command reads `ERR`: setting it before a command or after it is the same. Only a pixel write and RAINBOW branch
between two states, and neither condition is about `ERR`. -/
theorem effect_setErr (i : Instr) (s : State) : effect i s.setErr = (effect i s).setErr := by
  cases i with
  | setPix | setXyz => exact writePixel_setErr s _ _
  | rainbow => rw [effect, effect, apply_ite State.setErr]; rfl
  | _ => rfl

theorem setErr_of_err {s : State} (h : s.err = true) : s.setErr = s := by
  rw [State.setErr, ← h]

/-- Settles O8: the word is one the table does not list, and `setErr`, all that it does, passes through every later
command. -/
theorem illegalWordOnlySetsErr : Obligations.IllegalWordOnlySetsErr := by
  intro s w rest hlegal hinput hword
  obtain ⟨-, hillegal, -⟩ := legalWordsAreExactlyTheTable
  have hstep : step s = .next (State.setErr { s with input := rest }) :=
    hillegal s w rest hlegal hinput fun ⟨hrsv, hopc⟩ => hword.elim (· hrsv) (· hopc)
  refine ⟨hstep, rfl, rfl, fun herr => ?_, fun i => ⟨effect i { s with input := rest }, ?_, ?_⟩⟩
  · rw [hstep, setErr_of_err (s := { s with input := rest }) herr]
  · exact exec_of_legal (s := { s with input := rest }) hlegal i
  · exact (exec_of_legal (s := State.setErr { s with input := rest }) hlegal i).trans
      (congrArg _ (effect_setErr i { s with input := rest }))

end Sys2Proof.Machine

/-!
PROOFS. Reset and hazards (70_reset_and_hazards.md): a reset gives every piece of state its reset value (R170), and every
step completes, takes one event of the host's list and keeps the configuration (R172, R175).
-/

namespace Sys2Proof.Machine

@[simp] theorem effect_input (i : Instr) (s : State) : (effect i s).input = s.input := by
  obtain ⟨-, -, hinput, -⟩ := (effect_changes i s).keeps
  exact hinput

/-- Whatever the host's next event is, a legal configuration has a next state. -/
theorem step_completes {s : State} (hlegal : s.cfg.Legal) : ∃ t, step s = .next t := by
  match hi : s.input with
  | [] => exact ⟨_, (step_of_idle hi).trans (finish_of_legal hlegal _)⟩
  | .reset :: _ => exact ⟨_, (step_of_reset hi).trans (finish_of_legal hlegal _)⟩
  | .command w :: rest =>
    have hlegal' : ({ s with input := rest } : State).cfg.Legal := hlegal
    cases hd : decode w with
    | some i => exact ⟨_, (step_of_command hi hd).trans (exec_of_legal hlegal' i)⟩
    | none => exact ⟨_, (step_of_illegal hi hd).trans (finish_of_legal hlegal' _)⟩

theorem step_cfg {s t : State} (h : step s = .next t) : t.cfg = s.cfg := by
  obtain ⟨-, ⟨-, rfl⟩ | ⟨rest, -, rfl⟩ | ⟨w, rest, i, -, -, rfl⟩ | ⟨w, rest, -, -, rfl⟩⟩ := step_cases h
  · rfl
  · exact State.resetWith_cfg s.cfg rest
  · exact effect_cfg i _
  · rfl

/-- A step takes the first event; an idle one finds none to take. -/
theorem step_input {s t : State} (h : step s = .next t) : t.input = s.input.tail := by
  obtain ⟨-, ⟨hi, rfl⟩ | ⟨rest, hi, rfl⟩ | ⟨w, rest, i, hi, -, rfl⟩ | ⟨w, rest, hi, -, rfl⟩⟩ := step_cases h
  · rw [hi, List.tail_nil]
  · rw [hi, State.resetWith_input, List.tail_cons]
  · rw [hi, effect_input, List.tail_cons]
  · rw [hi, List.tail_cons]

/-- Settles O11: the step has a next state, and what a step keeps holds of it. -/
theorem everyStepCompletes : Obligations.EveryStepCompletes := by
  intro s hlegal
  obtain ⟨t, hstep⟩ := step_completes hlegal
  exact ⟨t, hstep, step_cfg hstep, step_input hstep⟩

/-- Settles O2: the next state is `resetWith`, whose values O1 lists. -/
theorem resetEventRestoresTheResetState : Obligations.ResetEventRestoresTheResetState := by
  intro s rest hlegal hinput
  obtain ⟨hvalues, -⟩ := resetStateHoldsTheSpecValues
  obtain ⟨hfb, hbright, hresult, herr, hcfg, htxline, htxlog⟩ := hvalues s.cfg rest
  exact ⟨State.resetWith s.cfg rest, (step_of_reset hinput).trans (finish_of_legal hlegal _),
    hfb, hbright, hresult, herr, hcfg, htxline, htxlog, State.resetWith_input s.cfg rest⟩

end Sys2Proof.Machine
